-- ==== Sys2Proof/Word.lean ====
section
/-! DEFINITION. The widths of `wasm2swf-core`: memory bytes (R40), port values (R70), command and response words
(R70, R71). -/

namespace Sys2Proof

/-- One byte of memory, or one element of a `BDELTA` buffer (R9, R40). -/
abbrev Byte := BitVec 8

/-- A 32-bit operand or result (R12). -/
abbrev Word32 := BitVec 32

/-- The value of one operand port `A`, `B`, `C` or of the result port `R` (R70, R71). -/
abbrev Word64 := BitVec 64

/-- A command word `op ++ A ++ B ++ C` (R70). -/
abbrev CmdWord := BitVec 195

/-- A response word `status ++ R` (R71). -/
abbrev RspWord := BitVec 66

end Sys2Proof
end

