-- ==== Sys2Proof/Config.lean ====
section
/-! DEFINITION. What an implementation fixes (R7) and the free values the spec leaves open (R30, R125, R242).

A free value is an `opaque` constant with no body: nothing can evaluate it, and a statement about it holds whatever it
is. -/

namespace Sys2Proof

/-- The named parameters of R7 that are fixed when the block is built (R24, last row of R30's table). -/
structure Params where
  /-- `ADDR_W`, the width of a `BDELTA` buffer address, 1 to 64. -/
  addrW : Nat
  /-- `MEM_SIZE`, the number of addressable bytes, 0 to 2^`ADDR_W`. -/
  memSize : Nat
deriving DecidableEq, Repr

/-- The parameters of the machine right after reset. `ADDR_W` = 32 is R7's default; R7 gives `MEM_SIZE` no default, and
0x1000 is the value the spec's programs use (`95_test_vectors.md` Part 3). DESIGN CHOICE, unsafe for a statement about
the reset state only (log 3). -/
def Config.defaultParams : Params := { addrW := 32, memSize := 0x1000 }

/-- The byte at an address that nobody has written (R30: "an arbitrary byte, not zero"): of the power-up's seed and the
address, so that it reads alike until it is written (R44). Free value (log 4). -/
opaque Config.unwrittenByte (seed addr : Nat) : BitVec 8

/-- `NAN_BITS_32` (R7, R125): the sign and the fraction less one of the NaN that a draw gives, of the draw's number and
the two operands. Every binary32 NaN pattern is one such pair. Free value (log 5). -/
opaque Config.nanBits32 (draw : Nat) (a b : BitVec 32) : Bool × Fin 8388607

/-- `NAN_BITS_64` (R7, R125), as `Config.nanBits32`. Free value (log 5). -/
opaque Config.nanBits64 (draw : Nat) (a b : BitVec 64) : Bool × Fin 4503599627370495

/-- A byte of the destination range of a `BDELTA` that a reset cut short (R242: "any value"), of the draw's number, the
abandoned command and the address. Free value (log 8). -/
opaque Config.abandonedByte (draw : Nat) (cmd : BitVec 195) (addr : Nat) : BitVec 8

end Sys2Proof
end

