-- ==== Sys2Proof/Syntax.lean ====
section
/-! DEFINITION. The commands of `wasm2swf-core`: one constructor per row of `spec/opcode_table.json` (R72). -/

namespace Sys2Proof

/-- A decoded command: which operation, and the values of the three operand ports as the command carries them (R70).
Which bits of a port an operation reads is R73's (`Machine/Operands.lean`). -/
inductive Instr where
  /-- `ADD.I32` (R100). -/
  | addI32 (a b c : Word64)
  /-- `ADD.I64` (R101). -/
  | addI64 (a b c : Word64)
  /-- `ADD.F32` (R127). -/
  | addF32 (a b c : Word64)
  /-- `ADD.F64` (R128). -/
  | addF64 (a b c : Word64)
  /-- `MANDEL.F64` (R160): the bound on `A`, the coordinates on `B` and `C`. -/
  | mandelF64 (a b c : Word64)
  /-- `PAL16` (R180). -/
  | pal16 (a b c : Word64)
  /-- `BDELTA` (R190): source on `A`, destination on `B`, length on `C`. -/
  | bdelta (a b c : Word64)
  /-- The reserved code 7, "whatever the ports hold" (R75, R214). -/
  | reserved (a b c : Word64)
deriving DecidableEq, Repr

/-- Why a bit string is no command (R77: there is one command length). -/
inductive DecodeError where
  /-- A bit above bit 194 is set, so this is no 195-bit command word. Raised by the decoder; safe: nothing runs. -/
  | tooWide
deriving DecidableEq, Repr

end Sys2Proof
end

