-- ==== Sys2Proof/WellFormed.lean ====
section
/-! DEFINITION. The checks: of the parameters (R7), and of a command (R76: there is nothing to check). -/

namespace Sys2Proof

/-- R7's ranges: 1 ≤ `ADDR_W` ≤ 64 and `MEM_SIZE` ≤ 2^`ADDR_W`. -/
def Params.wellFormed (p : Params) : Bool :=
  decide (1 ≤ p.addrW) && decide (p.addrW ≤ 64) && decide (p.memSize ≤ 2 ^ p.addrW)

/-- R76: "No bit pattern of the operand ports is illegal as such", and the reserved code is an encoding of its own
(R75), so every command is well formed. -/
def Instr.wellFormed : Instr → Bool
  | .addI32 _ _ _ => true
  | .addI64 _ _ _ => true
  | .addF32 _ _ _ => true
  | .addF64 _ _ _ => true
  | .mandelF64 _ _ _ => true
  | .pal16 _ _ _ => true
  | .bdelta _ _ _ => true
  | .reserved _ _ _ => true

end Sys2Proof
end

