-- ==== Sys2Proof/Decode.lean ====
section
/-! DEFINITION. Decoding and encoding a command word (R70, R72, R75, R77). -/

namespace Sys2Proof

/-- The field `op`, bits 194:192 (R70). -/
def opField (w : CmdWord) : BitVec 3 := w.extractLsb' 192 3

/-- The port `A`, bits 191:128 (R70). -/
def portA (w : CmdWord) : Word64 := w.extractLsb' 128 64

/-- The port `B`, bits 127:64 (R70). -/
def portB (w : CmdWord) : Word64 := w.extractLsb' 64 64

/-- The port `C`, bits 63:0 (R70). -/
def portC (w : CmdWord) : Word64 := w.extractLsb' 0 64

/-- The opcode map of R72 on `uint(op)`; 7 is the reserved code (R75). -/
def instrOf (op : Nat) (a b c : Word64) : Instr :=
  match op with
  | 0 => .addI32 a b c
  | 1 => .addI64 a b c
  | 2 => .addF32 a b c
  | 3 => .addF64 a b c
  | 4 => .mandelF64 a b c
  | 5 => .pal16 a b c
  | 6 => .bdelta a b c
  | _ => .reserved a b c

/-- R77: "every 195-bit word decodes either to one of the seven operations with its operands or to the reserved
code". -/
def decodeWord (w : CmdWord) : Instr :=
  instrOf (opField w).toNat (portA w) (portB w) (portC w)

/-- Decoding of any bit string, read as the number `n` with bit 0 the least significant: one that has a bit above bit
194 is no command word (R77: "There is one command length"). -/
def decode (n : Nat) : Except DecodeError Instr :=
  if n < 2 ^ 195 then .ok (decodeWord (BitVec.ofNat 195 n)) else .error .tooWide

/-- The host's question on a row of the opcode table: `w` is the command word of R70 as a number. The last byte's bits
above bit 194 are no bits of a command and must be zero (log 14). -/
def decodeTableWord (_nbits w : Nat) : Option Instr :=
  match decode w with
  | .ok i => some i
  | .error _ => none

/-- The code of an operation (R72, R75). -/
def opcode : Instr → BitVec 3
  | .addI32 _ _ _ => 0
  | .addI64 _ _ _ => 1
  | .addF32 _ _ _ => 2
  | .addF64 _ _ _ => 3
  | .mandelF64 _ _ _ => 4
  | .pal16 _ _ _ => 5
  | .bdelta _ _ _ => 6
  | .reserved _ _ _ => 7

/-- R70: "The command word is `op ++ A ++ B ++ C`". -/
def commandWord (op : BitVec 3) (a b c : Word64) : CmdWord := op ++ a ++ b ++ c

/-- The command word of an instruction (R70, R72). -/
def encode : Instr → CmdWord
  | .addI32 a b c => commandWord 0 a b c
  | .addI64 a b c => commandWord 1 a b c
  | .addF32 a b c => commandWord 2 a b c
  | .addF64 a b c => commandWord 3 a b c
  | .mandelF64 a b c => commandWord 4 a b c
  | .pal16 a b c => commandWord 5 a b c
  | .bdelta a b c => commandWord 6 a b c
  | .reserved a b c => commandWord 7 a b c

end Sys2Proof
end

