-- ==== Sys2Proof/Machine/State.lean ====
section
/-! DEFINITION. The state of the machine: the block's one bit of control state (R29) with the command it holds, the
memory (R40), the parameters (R7), and the host's side of the interface (R22, R249). The block has no registers, no
program counter, no flags and no control register (R21 to R25). -/

namespace Sys2Proof.Machine

/-- The statuses of a response (R210). -/
inductive Status where
  /-- Code 0: the command completed. -/
  | ok
  /-- Code 1: raised by `BDELTA` (R211). -/
  | invalidArgument
  /-- Code 2: raised by `BDELTA` (R212). -/
  | outOfBounds
  /-- Code 3: raised by the reserved code (R214). -/
  | illegalOp
deriving DecidableEq, Repr

/-- A response (R71): a status and the value of the result port `R`. -/
structure Response where
  status : Status
  result : Word64
deriving DecidableEq, Repr

/-- What the host, or another agent that shares `MEM`, does (R5, R50, R240, R249). -/
inductive HostAction where
  /-- Hands the block a command (R6). -/
  | issue (w : CmdWord)
  /-- Reads one byte of `MEM`. -/
  | read (addr : Nat)
  /-- Writes one byte of `MEM`. -/
  | write (addr : Nat) (v : Byte)
  /-- Resets the block (R240). -/
  | reset
deriving DecidableEq, Repr

/-- One move of the host: an action, and whether it is made while the command in flight has not been answered
(`early`: R50, R242) or after its response (R249). -/
structure HostMove where
  early : Bool
  action : HostAction
deriving DecidableEq, Repr

/-- The memory `MEM` (R40) as the bytes somebody has written, by address, addresses strictly rising. An unlisted address
has no byte of its own: nobody has written it (R30). -/
abbrev Memory := List Host.Cell

/-- The one form a memory is held in: addresses strictly rising. An unlisted address holds no byte, so no entry can be
what an unlisted address holds. -/
abbrev Memory.wf (m : Memory) : Prop := List.Pairwise (fun x y => x.1 < y.1) m

/-- The whole machine. -/
structure State where
  /-- `ADDR_W` and `MEM_SIZE` (R7), fixed at build (R24, R30). -/
  params : Params
  /-- `MEM` (R40). -/
  mem : Memory
  /-- Busy with the command word it holds, or idle (R29). -/
  inFlight : Option CmdWord
  /-- What the host does next, oldest first: the host's, not the block's (R22, R249; log 2). -/
  host : List HostMove
  /-- The responses the host has been given, oldest first: the host's, not the block's (R249; log 11). -/
  responses : List Response
  /-- The model's own: which contents unwritten memory has (log 4). -/
  seed : Nat
  /-- The model's own: how many free values have been drawn (log 5). -/
  draws : Nat
deriving DecidableEq, Repr

/-- What happens next: the host makes its oldest move, the block runs the command in flight, or nothing at all. -/
inductive Turn where
  /-- The host's oldest move, made while the command is in flight. -/
  | busyMove (w : CmdWord) (act : HostAction)
  /-- The block runs the command in flight to its response. -/
  | run (i : Instr)
  /-- The host's oldest move, made while the block is idle. -/
  | idleMove (act : HostAction)
  /-- The block is idle and the host does nothing (R240: "the block does nothing until the host issues a command"). -/
  | wait
deriving DecidableEq, Repr

/-- Reasons for which the model stops with a fault. A fault of the SPEC (R210) is no such stop: it is a response, and a
next state. -/
inductive Fault where
  /-- A memory primitive was given an address outside 0 to `MEM_SIZE`-1 (R41: "a model should still make the primitives
  refuse such an address rather than wrap it"). Raised by `memRead` and `memWrite`, that is by a host move; no command
  reaches it, because `BDELTA` checks its ranges first (R191). Safe. -/
  | addressOutsideMemory (addr : Nat)
deriving DecidableEq, Repr

/-- Reasons for which the model gives no meaning. -/
inductive Refusal where
  /-- An instruction without a meaning yet. No arm answers it: every instruction is modelled. Safe. -/
  | notModelled (mnemonic : String)
  /-- The host issues a command while another is in flight: the spec gives the host no such move (R29,
  `93_implementation_defined.md` U13). Raised by a host move; safe. -/
  | commandInFlight
  /-- Another agent writes a byte of the source range, or touches a byte of the destination range, of a `BDELTA` in
  flight: the spec gives the race no meaning (R50, R246). Raised by a host move; safe. -/
  | accessRace (addr : Nat)
deriving DecidableEq, Repr

/-- The machine right after reset (R30, R240): idle, nothing in flight, memory that nobody has written. The parameters,
the two host-side lists and the model's own two counters have the values of logs 2, 3, 4, 5 and 11. -/
def State.reset : State :=
  { params := Config.defaultParams, mem := [], inFlight := none, host := [], responses := [], seed := 0, draws := 0 }

end Sys2Proof.Machine
end

