-- ==== Sys2Proof/Machine/Operands.lean ====
section
/-! DEFINITION. How an operation takes its operands from the ports and places its result on `R` (R12, R73, R74). -/

namespace Sys2Proof.Machine

/-- A 32-bit operand: "bits 31 to 0 of its port; bits 63 to 32 of that port are ignored" (R73). -/
def operand32 (port : Word64) : Word32 := port.extractLsb' 0 32

/-- A 64-bit operand: the whole port (R73). -/
def operand64 (port : Word64) : Word64 := port

/-- A 32-bit signed operand, `sint` of the slice (R8, R73). -/
def operandSigned32 (port : Word64) : Int := (operand32 port).toInt

/-- An address operand, `uint` of "bits `ADDR_W`-1 to 0 of its port; the higher bits are ignored" (R73). -/
def operandAddr (p : Params) (port : Word64) : Nat := port.toNat % 2 ^ p.addrW

/-- A 32-bit result on `R`: `zext_64` (R74). -/
def result32 (v : Word32) : Word64 := v.setWidth 64

/-- A 64-bit result fills `R` (R74). -/
def result64 (v : Word64) : Word64 := v

/-- The result of an operation that has none (R74). -/
def resultNone : Word64 := 0

end Sys2Proof.Machine
end

