-- ==== Sys2Proof/Machine/Memory.lean ====
section
/-! DEFINITION. The list of written bytes that stands for `MEM`: looking an address up and writing one. -/

namespace Sys2Proof.Machine

/-- The byte somebody has written at an address, if any. -/
def Memory.lookup : Memory → Nat → Option Byte
  | [], _ => none
  | (b, u) :: m, a => if a = b then some u else Memory.lookup m a

/-- The memory with byte `v` at address `a`, in the one form `Memory.wf`. -/
def Memory.insert : Memory → Nat → Byte → Memory
  | [], a, v => [(a, v)]
  | (b, u) :: m, a, v =>
    if a < b then (a, v) :: (b, u) :: m
    else if a = b then (a, v) :: m
    else (b, u) :: Memory.insert m a v

end Sys2Proof.Machine
end

