-- ==== Sys2Proof/Machine/Ops.lean ====
section
/-! DEFINITION. The named operations over memory, and the two ways a command ends: an `OK` response and a fault (R213,
R218). -/

namespace Sys2Proof.Machine

/-- `MEM[a]` (R40, R44): the byte written last, or the free value of a byte nobody has written (R30). -/
def State.readByte (s : State) (a : Nat) : Byte :=
  match s.mem.lookup a with
  | some v => v
  | none => Config.unwrittenByte s.seed a

/-- The state with `MEM[a]` equal to `v`. -/
def State.setByte (s : State) (a : Nat) (v : Byte) : State :=
  { s with mem := s.mem.insert a v }

/-- `MemRead(a, 1)` (R41). -/
def memRead (s : State) (a : Nat) : Except Fault Byte :=
  if a < s.params.memSize then .ok (s.readByte a) else .error (.addressOutsideMemory a)

/-- `MemWrite(a, 1, v)` (R41). -/
def memWrite (s : State) (a : Nat) (v : Byte) : Except Fault State :=
  if a < s.params.memSize then .ok (s.setByte a v) else .error (.addressOutsideMemory a)

/-- The end of a command: its one response is given (R71) and the block is idle (R29). -/
def State.respond (s : State) (st : Status) (r : Word64) : State :=
  { s with inFlight := none, responses := s.responses ++ [{ status := st, result := r }] }

/-- TAKING AN EXCEPTION (`raise`, R10; R213, R218): "the delivery of a response with a non-`OK` status, and nothing
more", with `R` = 0. No state is saved and control goes nowhere, so there is no return from it either (R219: "There is
no return-from-trap operation and nothing to restore"). -/
def State.raiseFault (s : State) (st : Status) : State := s.respond st 0

/-- The state after one more free value has been drawn (log 5). -/
def State.countDraw (s : State) : State := { s with draws := s.draws + 1 }

/-- The first `n` values of a range that starts at `a` become free values of the abandoned command `w` (R242). -/
def State.abandonRange (s : State) (w : CmdWord) (a : Nat) : Nat → State
  | 0 => s
  | n + 1 => (State.abandonRange s w a n).setByte (a + n) (Config.abandonedByte s.draws w (a + n))

end Sys2Proof.Machine
end

