-- ==== Sys2Proof/Machine/ByteDelta.lean ====
section
/-! DEFINITION. The byte-delta line filter (`44_byte_delta_filter.md`): `BDELTA`. -/

namespace Sys2Proof.Machine

/-- R191's check on unbounded integers: the first condition that holds decides; `none` when none does. -/
def byteDeltaCheck (memSize src dest : Nat) (n : Int) : Option Status :=
  if n ≤ 0 then some .invalidArgument
  else if (memSize : Int) < src + n ∨ (memSize : Int) < dest + n then some .outOfBounds
  else if (src : Int) < dest + n ∧ (dest : Int) < src + n then some .invalidArgument
  else none

/-- One position `i ≥ 1` of R192: `dest[i] = (src[i] - src[i-1]) mod 256`, the reads before the write (R48). -/
def byteDeltaPosition (src dest i : Nat) (s : State) : Except Fault State :=
  match memRead s (src + i) with
  | .error e => .error e
  | .ok cur =>
    match memRead s (src + i - 1) with
    | .error e => .error e
    | .ok prev => memWrite s (dest + i) (cur - prev)

/-- R192's loop from position `i` on, `k` positions in rising order. -/
def byteDeltaLoop (src dest : Nat) : (k i : Nat) → State → Except Fault State
  | 0, _, s => .ok s
  | k + 1, i, s =>
    match byteDeltaPosition src dest i s with
    | .error e => .error e
    | .ok s' => byteDeltaLoop src dest k (i + 1) s'

/-- R192's `filter(s, d, n)`: `dest[0] = src[0]`, then the positions 1 to n-1. -/
def byteDeltaFilter (src dest n : Nat) (s : State) : Except Fault State :=
  match memRead s src with
  | .error e => .error e
  | .ok b0 =>
    match memWrite s dest b0 with
    | .error e => .error e
    | .ok s' => byteDeltaLoop src dest (n - 1) 1 s'

/-- R190: check everything, then run the loop; a failed check takes its fault before any access (R191, R213). -/
def execBdelta (a b c : Word64) (s : State) : Host.Outcome State Fault Refusal :=
  match byteDeltaCheck s.params.memSize (operandAddr s.params a) (operandAddr s.params b) (operandSigned32 c) with
  | some st => .next (s.raiseFault st)
  | none =>
    match byteDeltaFilter (operandAddr s.params a) (operandAddr s.params b) (operandSigned32 c).toNat s with
    | .ok s' => .next (s'.respond .ok resultNone)
    | .error e => .fault e

end Sys2Proof.Machine
end

