-- ==== Sys2Proof/Machine/Agents.lean ====
section
/-! DEFINITION. What the host and other agents do to the block and its memory: issuing a command (R29), reading and
writing memory between commands (R249), accesses that race with a `BDELTA` (R50), reset (R240, R242). Also where `step`
finds the command it runs. -/

namespace Sys2Proof.Machine

/-- A command is accepted: the block is busy with it until its response (R29). -/
def State.accept (s : State) (w : CmdWord) : State := { s with inFlight := some w }

/-- R240: "Reset puts the block in the idle state with no command in flight and no response pending". Memory, parameters
and what belongs to the host are as they were (R30). -/
def State.resetBlock (s : State) : State := { s with inFlight := none }

/-- The oldest move of the host has been made. -/
def State.popMove (s : State) : State := { s with host := s.host.tail }

/-- Does the address lie in the `n` bytes from `base` on? -/
def inRange (base : Nat) (n : Int) (addr : Nat) : Bool :=
  decide (base ≤ addr) && decide ((addr : Int) < base + n)

/-- Does a `BDELTA` in flight read this address as a source byte (R50)? False for every other command. -/
def inSourceOf (p : Params) (i : Instr) (addr : Nat) : Bool :=
  match i with
  | .bdelta a _ c => inRange (operandAddr p a) (operandSigned32 c) addr
  | .addI32 _ _ _ | .addI64 _ _ _ | .addF32 _ _ _ | .addF64 _ _ _ => false
  | .mandelF64 _ _ _ | .pal16 _ _ _ | .reserved _ _ _ => false

/-- Does a `BDELTA` in flight write this address as a destination byte (R50)? False for every other command. -/
def inDestOf (p : Params) (i : Instr) (addr : Nat) : Bool :=
  match i with
  | .bdelta _ b c => inRange (operandAddr p b) (operandSigned32 c) addr
  | .addI32 _ _ _ | .addI64 _ _ _ | .addF32 _ _ _ | .addF64 _ _ _ => false
  | .mandelF64 _ _ _ | .pal16 _ _ _ | .reserved _ _ _ => false

/-- R242, memory: a `BDELTA` that passed its check may have been writing, so every byte of its destination range becomes
a free value. One that fails its check writes nothing (R213), and no other command writes at all (log 8). -/
def State.abandonCommand (s : State) (w : CmdWord) : State :=
  match decodeWord w with
  | .bdelta a b c =>
    match byteDeltaCheck s.params.memSize (operandAddr s.params a) (operandAddr s.params b) (operandSigned32 c) with
    | none => (s.abandonRange w (operandAddr s.params b) (operandSigned32 c).toNat).countDraw
    | some _ => s
  | .addI32 _ _ _ | .addI64 _ _ _ | .addF32 _ _ _ | .addF64 _ _ _ => s
  | .mandelF64 _ _ _ | .pal16 _ _ _ | .reserved _ _ _ => s

/-- The host reads one byte of memory: memory is plain, so nothing changes (R44). -/
def hostRead (s : State) (addr : Nat) : Host.Outcome State Fault Refusal :=
  match memRead s addr with
  | .ok _ => .next s
  | .error e => .fault e

/-- The host writes one byte of memory (R41). -/
def hostWrite (s : State) (addr : Nat) (v : Byte) : Host.Outcome State Fault Refusal :=
  match memWrite s addr v with
  | .ok s' => .next s'
  | .error e => .fault e

/-- A move of the host while the block is idle (R29, R240, R249). -/
def hostMoveIdle (act : HostAction) (s : State) : Host.Outcome State Fault Refusal :=
  match act with
  | .issue w => .next (s.accept w)
  | .read addr => hostRead s addr
  | .write addr v => hostWrite s addr v
  | .reset => .next s.resetBlock

/-- A move made while the command `w` is in flight. A second command: the host has no such move (R29). An access: no
byte of a `BDELTA`'s source range may be written and no byte of its destination range touched (R50); any other access
is an ordinary one. Reset: the command is abandoned and gives no response (R242). -/
def hostMoveBusy (w : CmdWord) (act : HostAction) (s : State) : Host.Outcome State Fault Refusal :=
  match act with
  | .issue _ => .refused .commandInFlight
  | .read addr =>
    if inDestOf s.params (decodeWord w) addr then .refused (.accessRace addr) else hostRead s addr
  | .write addr v =>
    if inSourceOf s.params (decodeWord w) addr || inDestOf s.params (decodeWord w) addr then
      .refused (.accessRace addr)
    else hostWrite s addr v
  | .reset => .next (s.abandonCommand w).resetBlock

/-- Who is next. A move marked `early` happens while the command in flight is unanswered; any other waits for its
response (R249). On an idle block the mark says nothing. -/
def State.turn (s : State) : Turn :=
  match s.inFlight with
  | some w =>
    match s.host with
    | { early := true, action := act } :: _ => .busyMove w act
    | { early := false, action := _ } :: _ => .run (decodeWord w)
    | [] => .run (decodeWord w)
  | none =>
    match s.host with
    | { early := _, action := act } :: _ => .idleMove act
    | [] => .wait

/-- The state whose next turn is to run the command word `w`: `w` is in flight, and no move of the host that is marked
as made during a command comes first. -/
def State.withCommand (s : State) (w : CmdWord) : State :=
  { s with inFlight := some w, host := s.host.dropWhile (fun m => m.early) }

end Sys2Proof.Machine
end

