-- ==== Sys2Proof/Machine/Float.lean ====
section
/-! DEFINITION. The floating-point primitives of `41_fp_add.md`: formats (R120), classes (R121), rounding (R123), `fadd`
(R124), `fsub` (R129), `fmul` (R130) and `fle` (R131).

A primitive whose rule says "the result is a NaN (R125)" answers `none`: the rule leaves the pattern open, and whoever
needs a pattern draws one. Finite values are held as whole numbers of the format's least positive value
2^(emin-(p-1)) (R122), so that every sum and product here is exact. -/

namespace Sys2Proof.Machine

/-- A binary format (R120): `w` exponent bits and `p-1` fraction bits. -/
structure Format where
  expBits : Nat
  fracBits : Nat
deriving DecidableEq, Repr

/-- binary32: w = 8, p - 1 = 23 (R120). -/
abbrev binary32 : Format := ⟨8, 23⟩

/-- binary64: w = 11, p - 1 = 52 (R120). -/
abbrev binary64 : Format := ⟨11, 52⟩

/-- N, the width of a datum: sign, exponent, fraction (R120). -/
abbrev Format.bits (F : Format) : Nat := 1 + F.expBits + F.fracBits

/-- `bias = 2^(w-1) - 1` (R120); also `emax`. -/
def Format.bias (F : Format) : Nat := 2 ^ (F.expBits - 1) - 1

/-- The exponent field of infinities and NaNs, 2^w - 1 (R121). -/
def Format.expOnes (F : Format) : Nat := 2 ^ F.expBits - 1

/-- The datum with the three given fields (R120). -/
def fpPack (F : Format) (sign : Bool) (exp frac : Nat) : BitVec F.bits :=
  BitVec.ofBool sign ++ BitVec.ofNat F.expBits exp ++ BitVec.ofNat F.fracBits frac

/-- `sign(v)` (R120); true is 1. -/
def fpSign (F : Format) (v : BitVec F.bits) : Bool := v.getLsbD (F.expBits + F.fracBits)

/-- `exp(v)`, the biased exponent (R120). -/
def fpExp (F : Format) (v : BitVec F.bits) : Nat := (v.extractLsb' F.fracBits F.expBits).toNat

/-- `frac(v)` (R120). -/
def fpFrac (F : Format) (v : BitVec F.bits) : Nat := (v.extractLsb' 0 F.fracBits).toNat

/-- `isNaN_F(v)` (R121), quiet or signalling alike. -/
def fpIsNaN (F : Format) (v : BitVec F.bits) : Bool := fpExp F v == F.expOnes && fpFrac F v != 0

/-- `isInf_F(v)` (R121). -/
def fpIsInf (F : Format) (v : BitVec F.bits) : Bool := fpExp F v == F.expOnes && fpFrac F v == 0

/-- `isZero_F(v)` (R121). -/
def fpIsZero (F : Format) (v : BitVec F.bits) : Bool := fpExp F v == 0 && fpFrac F v == 0

/-- Finite: zero, subnormal or normal (R121). -/
def fpIsFinite (F : Format) (v : BitVec F.bits) : Bool := fpExp F v != F.expOnes

/-- `|val_F(v)|` of a finite datum in units of 2^(emin-(p-1)) (R122): `frac(v)` when `exp(v) = 0`, and else
`(2^(p-1) + frac(v))` times 2^(exp(v)-1), since `emin + bias = 1`. -/
def fpMag (F : Format) (v : BitVec F.bits) : Nat :=
  if fpExp F v = 0 then fpFrac F v else (2 ^ F.fracBits + fpFrac F v) * 2 ^ (fpExp F v - 1)

/-- `val_F(v)` of a finite datum in units of 2^(emin-(p-1)) (R122). -/
def fpUnits (F : Format) (v : BitVec F.bits) : Int :=
  if fpSign F v then -(fpMag F v : Int) else (fpMag F v : Int)

/-- The infinity of a sign (R121). -/
def fpInf (F : Format) (sign : Bool) : BitVec F.bits := fpPack F sign F.expOnes 0

/-- The zero of a sign (R121). -/
def fpZero (F : Format) (sign : Bool) : BitVec F.bits := fpPack F sign 0 0

/-- The floor of the base-2 logarithm of a number below 2^(2^levels), by halving the range: Lean's kernel evaluates it in
few steps. -/
def log2Levels : (levels n : Nat) → Nat
  | 0, _ => 0
  | j + 1, n => if n >>> 2 ^ j = 0 then log2Levels j n else 2 ^ j + log2Levels j (n >>> 2 ^ j)

/-- `floor(log2(n))` (R123); it is `Nat.log2 n` (`floorLog2_eq` in `Laws/Float.lean`). -/
def floorLog2 (n : Nat) : Nat := if n >>> 2 ^ 13 = 0 then log2Levels 13 n else Nat.log2 n

/-- The nearest whole number to `n / 2^sh`, ties to the even one: `m0`, `r` and `m` of R123. -/
def roundShift (n sh : Nat) : Nat :=
  let m0 := n / 2 ^ sh
  let r := n % 2 ^ sh
  if 2 * r < 2 ^ sh then m0
  else if 2 ^ sh < 2 * r then m0 + 1
  else if m0 % 2 = 0 then m0
  else m0 + 1

/-- `round_F` (R123) of the number of sign `s` whose magnitude is `n * 2^(emin-(p-1)-k)`, with `n ≠ 0`: roundTiesToEven,
gradual underflow, overflow to infinity. `d` is R123's `E - emin`, which is 0 below 2^emin; one unit in the last place
is 2^(emin-(p-1)+d), so `a / 2^q` is `n / 2^(d+k)`. -/
def fpRound (F : Format) (k : Nat) (s : Bool) (n : Nat) : BitVec F.bits :=
  let d := floorLog2 n - (k + F.fracBits)
  let m := roundShift n (d + k)
  if m < 2 ^ F.fracBits then fpPack F s 0 m
  else
    let carried := m == 2 ^ (F.fracBits + 1)
    let m' := if carried then 2 ^ F.fracBits else m
    let e := if carried then d + 2 else d + 1
    if F.expOnes ≤ e then fpInf F s else fpPack F s e (m' - 2 ^ F.fracBits)

/-- `fadd_F(a, b)` (R124). `none` is "a NaN (R125)". -/
def fadd (F : Format) (a b : BitVec F.bits) : Option (BitVec F.bits) :=
  if fpIsNaN F a || fpIsNaN F b then none
  else if fpIsInf F a && fpIsInf F b then
    if fpSign F a = fpSign F b then some a else none
  else if fpIsInf F a then some a
  else if fpIsInf F b then some b
  else
    let x := fpUnits F a + fpUnits F b
    if x ≠ 0 then some (fpRound F 0 (decide (x < 0)) x.natAbs)
    else if fpSign F a && fpSign F b then some (fpZero F true)
    else some (fpZero F false)

/-- The datum with its sign bit inverted (R129). -/
def fpNegate (F : Format) (v : BitVec F.bits) : BitVec F.bits :=
  fpPack F (!fpSign F v) (fpExp F v) (fpFrac F v)

/-- `fsub_F(a, b)` (R129). -/
def fsub (F : Format) (a b : BitVec F.bits) : Option (BitVec F.bits) :=
  if fpIsNaN F a || fpIsNaN F b then none else fadd F a (fpNegate F b)

/-- How many powers of two the unit of a product of two data lies below the unit 2^(emin-(p-1)) of a datum:
`(p-1) - emin`. -/
def Format.mulShift (F : Format) : Nat := F.fracBits + (F.bias - 1)

/-- `fmul_F(a, b)` (R130). -/
def fmul (F : Format) (a b : BitVec F.bits) : Option (BitVec F.bits) :=
  let s := fpSign F a != fpSign F b
  if fpIsNaN F a || fpIsNaN F b then none
  else if fpIsInf F a || fpIsInf F b then
    if fpIsZero F a || fpIsZero F b then none else some (fpInf F s)
  else
    let n := fpMag F a * fpMag F b
    if n ≠ 0 then some (fpRound F F.mulShift s n) else some (fpZero F s)

/-- `fle_F(a, b)` (R131): an ordered comparison, false on a NaN. -/
def fle (F : Format) (a b : BitVec F.bits) : Bool :=
  if fpIsNaN F a || fpIsNaN F b then false
  else if fpIsInf F a && fpSign F a then true
  else if fpIsInf F b && !fpSign F b then true
  else if fpIsInf F a || fpIsInf F b then false
  else decide (fpUnits F a ≤ fpUnits F b)

end Sys2Proof.Machine
end

