-- ==== Sys2Proof/Machine/FpAdd.lean ====
section
/-! DEFINITION. The floating-point adders (`41_fp_add.md`): `ADD.F32` and `ADD.F64`. No flags, no exceptions, no memory
(R126). A NaN result is a free value that is a NaN and nothing more (R125; log 5). -/

namespace Sys2Proof.Machine

/-- A binary32 NaN drawn for the operands `a` and `b` (R125): any sign, any fraction but 0. -/
def drawnNaN32 (draw : Nat) (a b : Word32) : Word32 :=
  let pick := Config.nanBits32 draw a b
  fpPack binary32 pick.1 binary32.expOnes (pick.2.val + 1)

/-- A binary64 NaN drawn for the operands `a` and `b` (R125): any sign, any fraction but 0. -/
def drawnNaN64 (draw : Nat) (a b : Word64) : Word64 :=
  let pick := Config.nanBits64 draw a b
  fpPack binary64 pick.1 binary64.expOnes (pick.2.val + 1)

/-- R127: `res <- fadd_32(a, b)`, `R <- zext_64(res)`. -/
def execAddF32 (a b _c : Word64) (s : State) : Host.Outcome State Fault Refusal :=
  match fadd binary32 (operand32 a) (operand32 b) with
  | some res => .next (s.respond .ok (result32 res))
  | none => .next (s.countDraw.respond .ok (result32 (drawnNaN32 s.draws (operand32 a) (operand32 b))))

/-- R128: `res <- fadd_64(a, b)`, `R <- res`. -/
def execAddF64 (a b _c : Word64) (s : State) : Host.Outcome State Fault Refusal :=
  match fadd binary64 (operand64 a) (operand64 b) with
  | some res => .next (s.respond .ok (result64 res))
  | none => .next (s.countDraw.respond .ok (result64 (drawnNaN64 s.draws (operand64 a) (operand64 b))))

end Sys2Proof.Machine
end

