-- ==== Sys2Proof/Machine/IntegerAdd.lean ====
section
/-! DEFINITION. The integer adders (`40_integer_add.md`): `ADD.I32` and `ADD.I64`. No flags, no exceptions, no memory. -/

namespace Sys2Proof.Machine

/-- R100: `sum <- to_32(uint(a) + uint(b))`, `R <- zext_64(sum)`. -/
def execAddI32 (a b _c : Word64) (s : State) : Host.Outcome State Fault Refusal :=
  .next (s.respond .ok (result32 (operand32 a + operand32 b)))

/-- R101: `sum <- to_64(uint(a) + uint(b))`, `R <- sum`. -/
def execAddI64 (a b _c : Word64) (s : State) : Host.Outcome State Fault Refusal :=
  .next (s.respond .ok (result64 (operand64 a + operand64 b)))

end Sys2Proof.Machine
end

