-- ==== Sys2Proof/Machine/Mandelbrot.lean ====
section
/-! DEFINITION. The Mandelbrot escape-time counter (`42_mandelbrot.md`): `MANDEL.F64`.

An orbit value is a binary64 datum, or `none` for "a NaN (R125)": every primitive on a NaN gives a NaN and `fle` is false
on any NaN, so the pattern of a NaN cannot be seen in the count (R162 d; log 6). -/

namespace Sys2Proof.Machine

/-- A binary64 value inside a command: a datum, or some NaN. -/
abbrev FpVal := Option (BitVec 64)

/-- A primitive on values, of which any may be some NaN (R124, R129, R130: a NaN operand gives a NaN). -/
def onValues (op : BitVec 64 → BitVec 64 → Option (BitVec 64)) (x y : FpVal) : FpVal :=
  match x, y with
  | some u, some v => op u v
  | _, _ => none

/-- `fadd_64` on values. -/
def addVal (x y : FpVal) : FpVal := onValues (fadd binary64) x y

/-- `fsub_64` on values. -/
def subVal (x y : FpVal) : FpVal := onValues (fsub binary64) x y

/-- `fmul_64` on values. -/
def mulVal (x y : FpVal) : FpVal := onValues (fmul binary64) x y

/-- `fle_64` of a value and a datum: false on a NaN (R131). -/
def leVal (x : FpVal) (bound : BitVec 64) : Bool :=
  match x with
  | some u => fle binary64 u bound
  | none => false

/-- The constant 0.0 (R132). -/
def fpConst0 : BitVec 64 := 0x0000000000000000

/-- The constant 2.0 (R132). -/
def fpConst2 : BitVec 64 := 0x4000000000000000

/-- The constant 4.0 (R132). -/
def fpConst4 : BitVec 64 := 0x4010000000000000

/-- `fle_64(m, 4.0)` for the squared modulus `m` of the point `(x, y)` (R160). -/
def staysBounded (x y : FpVal) : Bool := leVal (addVal (mulVal x x) (mulVal y y)) fpConst4

/-- `x' = (x·x - y·y) + x0` (R160, R161). -/
def nextX (x0 : BitVec 64) (x y : FpVal) : FpVal :=
  addVal (subVal (mulVal x x) (mulVal y y)) (some x0)

/-- `y' = ((2·x)·y) + y0` (R160, R161). -/
def nextY (y0 : BitVec 64) (x y : FpVal) : FpVal :=
  addVal (mulVal (mulVal (some fpConst2) x) y) (some y0)

/-- R160's loop: the test comes before the step, both new coordinates come from the old ones. -/
def escapeLoop (n : Int) (x0 y0 : BitVec 64) : (fuel iter : Nat) → (x y : FpVal) → Nat
  | 0, iter, _, _ => iter
  | fuel + 1, iter, x, y =>
    if (iter : Int) < n ∧ staysBounded x y = true then
      escapeLoop n x0 y0 fuel (iter + 1) (nextX x0 x y) (nextY y0 x y)
    else iter

/-- The escape-time count of `x0 + i·y0` under the bound `n` (R160). `max(n, 0) + 1` loop passes are fuel enough (R248). -/
def escapeCount (n : Int) (x0 y0 : BitVec 64) : Nat :=
  escapeLoop n x0 y0 (n.toNat + 1) 0 (some fpConst0) (some fpConst0)

/-- R160: `count <- to_32(iter)`, `R <- zext_64(count)`. A bound below 0 gives 0 (R163). -/
def execMandelF64 (a b c : Word64) (s : State) : Host.Outcome State Fault Refusal :=
  .next (s.respond .ok
    (result32 (BitVec.ofNat 32 (escapeCount (operandSigned32 a) (operand64 b) (operand64 c)))))

end Sys2Proof.Machine
end

