-- ==== Sys2Proof/Machine/Palette.lean ====
section
/-! DEFINITION. The palette lookup (`43_palette.md`): `PAL16`. No state, no counter, no exceptions (R27, R182). -/

namespace Sys2Proof.Machine

/-- The sentinel -1 (R180). -/
def paletteSentinel : Word32 := 0xFFFFFFFF

/-- `PALETTE[k]` for k = 0 to 15, `0x00 ++ red ++ green ++ blue` (R181), and the sentinel above 15. -/
def paletteEntry (k : Nat) : Word32 :=
  match k with
  | 0 => 0x00000000
  | 1 => 0x00000080
  | 2 => 0x00008000
  | 3 => 0x00008080
  | 4 => 0x00800000
  | 5 => 0x00800080
  | 6 => 0x00808000
  | 7 => 0x00808080
  | 8 => 0x00C0C0C0
  | 9 => 0x000000FF
  | 10 => 0x0000FF00
  | 11 => 0x0000FFFF
  | 12 => 0x00FF0000
  | 13 => 0x00FF00FF
  | 14 => 0x00FFFF00
  | 15 => 0x00FFFFFF
  | _ => paletteSentinel

/-- R180's `value` for `k = sint(index)`. -/
def paletteValue (k : Int) : Word32 :=
  if 0 ≤ k ∧ k ≤ 15 then paletteEntry k.toNat else paletteSentinel

/-- R180: `R <- zext_64(value)`. -/
def execPal16 (a _b _c : Word64) (s : State) : Host.Outcome State Fault Refusal :=
  .next (s.respond .ok (result32 (paletteValue (operandSigned32 a))))

end Sys2Proof.Machine
end

