-- ==== Sys2Proof/Machine/Reserved.lean ====
section
/-! DEFINITION. The reserved operation code 7 (`30_encoding.md` R75, `60_exceptions.md` R214). -/

namespace Sys2Proof.Machine

/-- R75: "raises `IllegalOp`: status 3, `R = 0`, no memory access, whatever the ports hold". -/
def execReserved (_a _b _c : Word64) (s : State) : Host.Outcome State Fault Refusal :=
  .next (s.raiseFault .illegalOp)

end Sys2Proof.Machine
end

