-- ==== Sys2Proof/Machine/Dispatch.lean ====
section
/-! DEFINITION. One arm per command: the unit that runs it (R72). -/

namespace Sys2Proof.Machine

def exec (i : Instr) (s : State) : Host.Outcome State Fault Refusal :=
  match i with
  | .addI32 a b c => Sys2Proof.Machine.execAddI32 a b c s
  | .addI64 a b c => Sys2Proof.Machine.execAddI64 a b c s
  | .addF32 a b c => Sys2Proof.Machine.execAddF32 a b c s
  | .addF64 a b c => Sys2Proof.Machine.execAddF64 a b c s
  | .mandelF64 a b c => Sys2Proof.Machine.execMandelF64 a b c s
  | .pal16 a b c => Sys2Proof.Machine.execPal16 a b c s
  | .bdelta a b c => Sys2Proof.Machine.execBdelta a b c s
  | .reserved a b c => Sys2Proof.Machine.execReserved a b c s

end Sys2Proof.Machine
end

