-- ==== Sys2Proof/Machine/Step.lean ====
section
/-! DEFINITION. One step of the machine, and the state whose next step runs a given command. -/

namespace Sys2Proof.Machine

/-- One step: the host's oldest move, or the command in flight run to its response (R6, R28), or nothing (R240). -/
def step (s : State) : Host.Outcome State Fault Refusal :=
  match s.turn with
  | .busyMove w act => hostMoveBusy w act s.popMove
  | .run i => exec i s
  | .idleMove act => hostMoveIdle act s.popMove
  | .wait => .next s

/-- The command whose word is the number `w` (R70) is in flight and the next step runs it (log 2). -/
def State.withFetchWord (s : State) (_nbits w : Nat) : State :=
  s.withCommand (BitVec.ofNat 195 w)

end Sys2Proof.Machine
end

