-- ==== Sys2Proof/Machine/Flags.lean ====
section
/-! DEFINITION. The block has no status flags, no condition codes and no IEEE exception flags (R23, R126), so no flag is
computed anywhere. What a command reports besides its result is the status of its response, whose codes are here (R71,
R210). -/

namespace Sys2Proof.Machine

/-- The code of a status (R210). -/
def statusCode : Status → BitVec 2
  | .ok => 0
  | .invalidArgument => 1
  | .outOfBounds => 2
  | .illegalOp => 3

/-- R71: "The response word is `status ++ R`". -/
def responseWord (r : Response) : RspWord := statusCode r.status ++ r.result

end Sys2Proof.Machine
end

