-- ==== Sys2Proof/Machine/Reference.lean ====
section
/-! DEFINITION. Two rules as the spec writes them, for statements to compare the machine with: the exact value of a datum
and its rounding in rational arithmetic (R122, R123), and the Mandelbrot loop on bit patterns with a NaN pattern drawn
for every operation that gives a NaN (R125, R160). The machine does not run them. -/

namespace Sys2Proof.Machine

/-- `emin = 1 - bias` (R120). -/
def Format.emin (F : Format) : Int := 1 - (F.bias : Int)

/-- `val_F(v)` of a finite datum, an exact rational number (R122). -/
def fpValue (F : Format) (v : BitVec F.bits) : ℚ :=
  let s : ℚ := if fpSign F v then -1 else 1
  if fpExp F v = 0 then s * (fpFrac F v : ℚ) * (2 : ℚ) ^ (F.emin - (F.fracBits : Int))
  else s * ((2 : ℚ) ^ F.fracBits + (fpFrac F v : ℚ)) * (2 : ℚ) ^ ((fpExp F v : Int) - (F.bias : Int) - (F.fracBits : Int))

/-- `round_F(x)` of a rational number `x ≠ 0`, line by line as R123 has it. -/
def roundRational (F : Format) (x : ℚ) : BitVec F.bits :=
  let s := decide (x < 0)
  let a := |x|
  let E := max (Int.log 2 a) F.emin
  let q := E - (F.fracBits : Int)
  let m0 := Int.floor (a / (2 : ℚ) ^ q)
  let r := a / (2 : ℚ) ^ q - (m0 : ℚ)
  let m := if r < 1 / 2 then m0 else if 1 / 2 < r then m0 + 1 else if m0 % 2 = 0 then m0 else m0 + 1
  let E' := if m = 2 ^ (F.fracBits + 1) then E + 1 else E
  let m' := if m = 2 ^ (F.fracBits + 1) then 2 ^ F.fracBits else m
  if 2 ^ F.fracBits ≤ m' then
    if (F.bias : Int) < E' then fpPack F s F.expOnes 0
    else fpPack F s (E' + F.bias).toNat (m' - 2 ^ F.fracBits).toNat
  else fpPack F s 0 m'.toNat

/-- A result as a bit pattern: the datum, or the NaN pattern `nan` where the primitive's rule says "a NaN" (R125). -/
def patternOf (r : Option (BitVec 64)) (nan : BitVec 64) : BitVec 64 :=
  match r with
  | some v => v
  | none => nan

/-- R160's loop on bit patterns. `nan k` is the pattern drawn by the `k`-th operation, eight a pass (R161). -/
def literalLoop (nan : Nat → BitVec 64) (n : Int) (x0 y0 : BitVec 64) : (fuel iter : Nat) → (x y : BitVec 64) → Nat
  | 0, iter, _, _ => iter
  | fuel + 1, iter, x, y =>
    let xx := patternOf (fmul binary64 x x) (nan (8 * iter))
    let yy := patternOf (fmul binary64 y y) (nan (8 * iter + 1))
    let m := patternOf (fadd binary64 xx yy) (nan (8 * iter + 2))
    if (iter : Int) < n ∧ fle binary64 m fpConst4 = true then
      let t := patternOf (fsub binary64 xx yy) (nan (8 * iter + 3))
      let xn := patternOf (fadd binary64 t x0) (nan (8 * iter + 4))
      let u := patternOf (fmul binary64 fpConst2 x) (nan (8 * iter + 5))
      let v := patternOf (fmul binary64 u y) (nan (8 * iter + 6))
      let yn := patternOf (fadd binary64 v y0) (nan (8 * iter + 7))
      literalLoop nan n x0 y0 fuel (iter + 1) xn yn
    else iter

/-- The count of R160's loop on bit patterns. -/
def literalCount (nan : Nat → BitVec 64) (n : Int) (x0 y0 : BitVec 64) : Nat :=
  literalLoop nan n x0 y0 (n.toNat + 1) 0 fpConst0 fpConst0

/-- The orbit of a point (R160): the values `x`, `y` after `k` steps. -/
def orbit (x0 y0 : BitVec 64) : Nat → FpVal × FpVal
  | 0 => (some fpConst0, some fpConst0)
  | k + 1 => (nextX x0 (orbit x0 y0 k).1 (orbit x0 y0 k).2, nextY y0 (orbit x0 y0 k).1 (orbit x0 y0 k).2)

end Sys2Proof.Machine
end

