-- ==== Sys2Proof/Safety.lean ====
section
/-! DEFINITION. What a good state is, in the terms the statements use. -/

namespace Sys2Proof.Machine

/-- R74, R213: "A response whose status is not `OK` has `R = 0`". -/
abbrev Response.legal (r : Response) : Prop := r.status ≠ .ok → r.result = 0

/-- The invariant of the machine: the parameters lie in R7's ranges, memory has its one form and no byte outside
addresses 0 to `MEM_SIZE`-1 (R40), and every response given is legal (R74). -/
abbrev State.Inv (s : State) : Prop :=
  s.params.wellFormed = true ∧ Memory.wf s.mem ∧ (∀ x ∈ s.mem, x.1 < s.params.memSize) ∧
    ∀ r ∈ s.responses, Response.legal r

end Sys2Proof.Machine
end

