-- ==== Sys2Proof/Certificates/Slice0/Obligations.lean ====
section
/-! DEFINITION. The statements about the machine, one definition each. -/

open Sys2Proof Sys2Proof.Machine

-- Encoding (`30_encoding.md`)

/-- R70, R72, R77: no bit of a command is lost by encoding it, for all eight constructors and all port values. -/
def Obligations.DecodingAnEncodedCommandGivesItBack : Prop :=
  ∀ i : Instr, i.wellFormed = true → decodeWord (encode i) = i

/-- R70, R77: every 195-bit word is the encoding of the command it decodes to, so each command has one word. -/
def Obligations.EncodingADecodedWordGivesItBack : Prop :=
  ∀ w : CmdWord, (decodeWord w).wellFormed = true ∧ encode (decodeWord w) = w

/-- R70, R72: the word `op ++ A ++ B ++ C` decodes to the operation that the opcode map gives the code `op`, with the
ports `A`, `B`, `C`. -/
def Obligations.OpcodeMapSelectsTheOperation : Prop :=
  ∀ A B C : Word64,
    decodeWord (0#3 ++ A ++ B ++ C) = .addI32 A B C ∧
    decodeWord (1#3 ++ A ++ B ++ C) = .addI64 A B C ∧
    decodeWord (2#3 ++ A ++ B ++ C) = .addF32 A B C ∧
    decodeWord (3#3 ++ A ++ B ++ C) = .addF64 A B C ∧
    decodeWord (4#3 ++ A ++ B ++ C) = .mandelF64 A B C ∧
    decodeWord (5#3 ++ A ++ B ++ C) = .pal16 A B C ∧
    decodeWord (6#3 ++ A ++ B ++ C) = .bdelta A B C ∧
    decodeWord (7#3 ++ A ++ B ++ C) = .reserved A B C

/-- R77: every number below 2^195 decodes to the command of its word; that a longer bit string is rejected by name is the
model's reading of "There is one command length" (log 14). -/
def Obligations.EveryCommandWordDecodes : Prop :=
  (∀ w : CmdWord, decode w.toNat = .ok (decodeWord w)) ∧ ∀ n : Nat, 2 ^ 195 ≤ n → decode n = .error .tooWide

/-- R70, R72: six command words that `95_test_vectors.md` Part 3 and section 2.8 write out decode to their commands. -/
def Obligations.WordsOfTheSpecDecode : Prop :=
  decodeWord 0x0_DEADBEEF80000000_0000000080000000_0000000000000000 = .addI32 0xDEADBEEF80000000 0x80000000 0 ∧
  decodeWord 0x1_7FFFFFFFFFFFFFFF_0000000000000001_0000000000000000 = .addI64 0x7FFFFFFFFFFFFFFF 1 0 ∧
  decodeWord 0x2_000000003F666668_000000003DCCCCCD_0000000000000000 = .addF32 0x3F666668 0x3DCCCCCD 0 ∧
  decodeWord 0x4_0000000000000064_4000000000000000_4000000000000000 = .mandelF64 0x64 0x4000000000000000 0x4000000000000000 ∧
  decodeWord 0x5_0000000000000004_0000000000000000_0000000000000000 = .pal16 4 0 0 ∧
  decodeWord 0x6_0000000000000FFE_0000000000000FFF_00000000FFFFFFFF = .bdelta 0xFFE 0xFFF 0xFFFFFFFF

/-- R71, R210: the layout of the response word, the codes of the statuses, and that every command gets exactly one
response. -/
def Obligations.EveryCommandGetsOneResponseWord : Prop :=
  (∀ r : Response, (responseWord r).extractLsb' 64 2 = statusCode r.status ∧ (responseWord r).extractLsb' 0 64 = r.result) ∧
  (statusCode .ok = 0 ∧ statusCode .invalidArgument = 1 ∧ statusCode .outOfBounds = 2 ∧ statusCode .illegalOp = 3) ∧
  ∀ (i : Instr) (s : State), ∃ (t : State) (r : Response), exec i s = .next t ∧ t.responses = s.responses ++ [r]

-- Steps (`10_state.md`, `70_reset_and_hazards.md`)

/-- R6, R28: with a command in flight, and no move of the host that is made during it, one step runs exactly the decoded
command. -/
def Obligations.StepRunsTheCommandInFlight : Prop :=
  ∀ (s : State) (w : CmdWord), s.inFlight = some w → (∀ m ∈ s.host.head?, m.early = false) →
    step s = exec (decodeWord w) s

/-- R29, R249: a command that the host issues to an idle block is accepted, and the step after that runs it. -/
def Obligations.IssuedCommandIsAcceptedAndRun : Prop :=
  ∀ (s : State) (w : CmdWord) (e : Bool) (rest : List HostMove),
    s.inFlight = none → s.host = { early := e, action := .issue w } :: rest → (∀ m ∈ rest.head?, m.early = false) →
      step s = .next { s with inFlight := some w, host := rest } ∧
      step { s with inFlight := some w, host := rest } =
        exec (decodeWord w) { s with inFlight := some w, host := rest }

/-- R240: an idle block does nothing until the host acts, and a reset of an idle block changes nothing but the host's
list of moves (how moves are held: log 2). -/
def Obligations.IdleBlockWaitsAndResetsToIdle : Prop :=
  (∀ s : State, s.inFlight = none → s.host = [] → step s = .next s) ∧
  ∀ (s : State) (e : Bool) (rest : List HostMove), s.inFlight = none →
    s.host = { early := e, action := .reset } :: rest → step s = .next { s with host := rest }

/-- The model's loading of a command (log 2): the step after it runs the decoded word. -/
def Obligations.PlacedCommandWordRunsNext : Prop :=
  ∀ (s : State) (nbits w : Nat) (i : Instr), decodeTableWord nbits w = some i →
    step (s.withFetchWord nbits w) = exec i (s.withFetchWord nbits w)

-- The integer adders (`40_integer_add.md`)

/-- R100, whole: encoding, sum of the low 32 bits, its signed value, zero extension, status `OK`, and nothing else of the
state but that the command is over. -/
def Obligations.AddI32AnswersTheWrappedSum : Prop :=
  ∀ (s : State) (A B C : Word64),
    let a := A.extractLsb' 0 32
    let b := B.extractLsb' 0 32
    decodeWord (0#3 ++ A ++ B ++ C) = .addI32 A B C ∧
    exec (.addI32 A B C) s = .next { s with
      inFlight := none, responses := s.responses ++ [{ status := .ok, result := (BitVec.ofNat 32 (a.toNat + b.toNat)).setWidth 64 }] } ∧
    (BitVec.ofNat 32 (a.toNat + b.toNat)).toInt = (a.toInt + b.toInt + 2 ^ 31) % 2 ^ 32 - 2 ^ 31 ∧
    exec (.addI32 A B C) s = exec (.addI32 B A C) s

/-- R101, whole, as R100 with 64 bits. -/
def Obligations.AddI64AnswersTheWrappedSum : Prop :=
  ∀ (s : State) (A B C : Word64),
    decodeWord (1#3 ++ A ++ B ++ C) = .addI64 A B C ∧
    exec (.addI64 A B C) s = .next { s with
      inFlight := none, responses := s.responses ++ [{ status := .ok, result := BitVec.ofNat 64 (A.toNat + B.toNat) }] } ∧
    (BitVec.ofNat 64 (A.toNat + B.toNat)).toInt = (A.toInt + B.toInt + 2 ^ 63) % 2 ^ 64 - 2 ^ 63 ∧
    exec (.addI64 A B C) s = exec (.addI64 B A C) s

-- The floating-point adders and primitives (`41_fp_add.md`)

/-- R127, R125: `ADD.F32` answers `fadd_32` of the low halves, zero extended; where that is a NaN, some pattern that is a
NaN, and the model counts one draw (log 5). Nothing else of the state changes. -/
def Obligations.AddF32AnswersTheRoundedSum : Prop :=
  ∀ (s : State) (A B C : Word64),
    decodeWord (2#3 ++ A ++ B ++ C) = .addF32 A B C ∧
    (∀ r, fadd binary32 (A.extractLsb' 0 32) (B.extractLsb' 0 32) = some r →
      exec (.addF32 A B C) s = .next { s with
        inFlight := none, responses := s.responses ++ [{ status := .ok, result := BitVec.setWidth 64 r }] }) ∧
    (fadd binary32 (A.extractLsb' 0 32) (B.extractLsb' 0 32) = none →
      ∃ n : BitVec 32, fpIsNaN binary32 n = true ∧
        exec (.addF32 A B C) s = .next { s with
          inFlight := none, draws := s.draws + 1,
          responses := s.responses ++ [{ status := .ok, result := n.setWidth 64 }] })

/-- R128, R125: as R127 with binary64 and the whole ports. -/
def Obligations.AddF64AnswersTheRoundedSum : Prop :=
  ∀ (s : State) (A B C : Word64),
    decodeWord (3#3 ++ A ++ B ++ C) = .addF64 A B C ∧
    (∀ r, fadd binary64 A B = some r →
      exec (.addF64 A B C) s = .next { s with
        inFlight := none, responses := s.responses ++ [{ status := .ok, result := r }] }) ∧
    (fadd binary64 A B = none →
      ∃ n : BitVec 64, fpIsNaN binary64 n = true ∧
        exec (.addF64 A B C) s = .next { s with
          inFlight := none, draws := s.draws + 1,
          responses := s.responses ++ [{ status := .ok, result := n }] })

/-- R123: the machine's rounding of the number of sign `s` and magnitude `n * 2^(emin-(p-1)-k)` is R123's pseudocode on
that rational number. -/
def Obligations.RoundingIsTheSpecsRounding : Prop :=
  ∀ F : Format, F = binary32 ∨ F = binary64 → ∀ (k : Nat) (s : Bool) (n : Nat), n ≠ 0 →
    fpRound F k s n =
      roundRational F ((if s then -1 else 1) * (n : ℚ) * (2 : ℚ) ^ (F.emin - (F.fracBits : Int) - (k : Int)))

/-- R124: every case of the sum: NaNs, infinities, the rounded exact sum of two finite data, the sign of an exact zero. -/
def Obligations.FaddIsTheExactSumRounded : Prop :=
  ∀ F : Format, F = binary32 ∨ F = binary64 → ∀ a b : BitVec F.bits,
    (fpIsNaN F a = true ∨ fpIsNaN F b = true → fadd F a b = none) ∧
    (fpIsInf F a = true → fpIsInf F b = true → fadd F a b = if fpSign F a = fpSign F b then some a else none) ∧
    (fpIsInf F a = true → fpIsFinite F b = true → fadd F a b = some a) ∧
    (fpIsFinite F a = true → fpIsInf F b = true → fadd F a b = some b) ∧
    (fpIsFinite F a = true → fpIsFinite F b = true →
      (fpValue F a + fpValue F b ≠ 0 → fadd F a b = some (roundRational F (fpValue F a + fpValue F b))) ∧
      (fpValue F a + fpValue F b = 0 → fadd F a b = some (fpPack F (fpSign F a && fpSign F b) 0 0))) ∧
    fadd F a b = fadd F b a

/-- R123, on sums: a finite sum of finite data is a datum nearest to the exact sum, and where two values are equally near,
the one whose fraction is even. -/
def Obligations.FiniteSumIsNearestTiesToEven : Prop :=
  ∀ F : Format, F = binary32 ∨ F = binary64 → ∀ a b r : BitVec F.bits,
    fpIsFinite F a = true → fpIsFinite F b = true → fadd F a b = some r → fpIsFinite F r = true →
      ∀ c : BitVec F.bits, fpIsFinite F c = true →
        |fpValue F r - (fpValue F a + fpValue F b)| ≤ |fpValue F c - (fpValue F a + fpValue F b)| ∧
        (|fpValue F r - (fpValue F a + fpValue F b)| = |fpValue F c - (fpValue F a + fpValue F b)| →
          fpValue F c ≠ fpValue F r → fpFrac F r % 2 = 0)

/-- R123, on sums: "Overflow happens exactly when `|x| ≥ (2 − 2^(−p)) × 2^emax`", and then to the infinity of x's sign. -/
def Obligations.SumOverflowsExactlyAtTheThreshold : Prop :=
  ∀ F : Format, F = binary32 ∨ F = binary64 → ∀ a b : BitVec F.bits,
    fpIsFinite F a = true → fpIsFinite F b = true →
      ((2 - (2 : ℚ) ^ (-((F.fracBits : Int) + 1))) * (2 : ℚ) ^ F.bias ≤ |fpValue F a + fpValue F b| →
        fadd F a b = some (fpPack F (decide (fpValue F a + fpValue F b < 0)) F.expOnes 0)) ∧
      (|fpValue F a + fpValue F b| < (2 - (2 : ℚ) ^ (-((F.fracBits : Int) + 1))) * (2 : ℚ) ^ F.bias →
        ∃ r, fadd F a b = some r ∧ fpIsFinite F r = true)

/-- R123, on sums: "a non-zero sum never rounds to zero and a sum in the subnormal range is exact": no flush to zero. -/
def Obligations.SubnormalSumsAreExact : Prop :=
  ∀ F : Format, F = binary32 ∨ F = binary64 → ∀ a b : BitVec F.bits,
    fpIsFinite F a = true → fpIsFinite F b = true →
      (fpValue F a + fpValue F b ≠ 0 → ∃ r, fadd F a b = some r ∧ fpIsZero F r = false) ∧
      (|fpValue F a + fpValue F b| < (2 : ℚ) ^ F.emin →
        ∃ r, fadd F a b = some r ∧ fpIsFinite F r = true ∧ fpValue F r = fpValue F a + fpValue F b)

/-- R129: subtraction is addition of the datum with the sign bit inverted, with its stated special values. -/
def Obligations.FsubAddsTheNegatedOperand : Prop :=
  ∀ F : Format, F = binary32 ∨ F = binary64 → ∀ a b : BitVec F.bits,
    (fpIsNaN F a = true ∨ fpIsNaN F b = true → fsub F a b = none) ∧
    (fpIsNaN F a = false → fpIsNaN F b = false →
      fsub F a b = fadd F a (b ^^^ BitVec.twoPow F.bits (F.expBits + F.fracBits))) ∧
    (fpIsInf F a = true → fsub F a a = none) ∧
    (fpIsFinite F a = true → fsub F a a = some (fpPack F false 0 0)) ∧
    fsub F (fpPack F true 0 0) (fpPack F false 0 0) = some (fpPack F true 0 0) ∧
    fsub F (fpPack F false 0 0) (fpPack F true 0 0) = some (fpPack F false 0 0)

/-- R130: every case of the product. -/
def Obligations.FmulIsTheExactProductRounded : Prop :=
  ∀ F : Format, F = binary32 ∨ F = binary64 → ∀ a b : BitVec F.bits,
    let s := fpSign F a != fpSign F b
    (fpIsNaN F a = true ∨ fpIsNaN F b = true → fmul F a b = none) ∧
    (fpIsInf F a = true → fpIsZero F b = true → fmul F a b = none) ∧
    (fpIsZero F a = true → fpIsInf F b = true → fmul F a b = none) ∧
    (fpIsInf F a = true → fpIsNaN F b = false → fpIsZero F b = false → fmul F a b = some (fpPack F s F.expOnes 0)) ∧
    (fpIsInf F b = true → fpIsNaN F a = false → fpIsZero F a = false → fmul F a b = some (fpPack F s F.expOnes 0)) ∧
    (fpIsFinite F a = true → fpIsFinite F b = true →
      (fpValue F a * fpValue F b ≠ 0 → fmul F a b = some (roundRational F (fpValue F a * fpValue F b))) ∧
      (fpValue F a * fpValue F b = 0 → fmul F a b = some (fpPack F s 0 0)))

/-- R131: the ordered comparison, of every pair of data. -/
def Obligations.FleOrdersTheExtendedReals : Prop :=
  ∀ F : Format, F = binary32 ∨ F = binary64 → ∀ a b : BitVec F.bits,
    (fpIsNaN F a = true ∨ fpIsNaN F b = true → fle F a b = false) ∧
    (fpIsFinite F a = true → fpIsFinite F b = true → (fle F a b = true ↔ fpValue F a ≤ fpValue F b)) ∧
    (fpIsInf F a = true → fpIsFinite F b = true → fle F a b = fpSign F a) ∧
    (fpIsFinite F a = true → fpIsInf F b = true → fle F a b = !fpSign F b) ∧
    (fpIsInf F a = true → fpIsInf F b = true → fle F a b = (fpSign F a || !fpSign F b))

-- The Mandelbrot counter (`42_mandelbrot.md`)

/-- R160: `MANDEL.F64` always answers `OK` with the count of its three operands, zero extended, and changes nothing else.
What the count is: the next four statements. -/
def Obligations.MandelAnswersTheCount : Prop :=
  ∀ (s : State) (A B C : Word64),
    decodeWord (4#3 ++ A ++ B ++ C) = .mandelF64 A B C ∧
    exec (.mandelF64 A B C) s = .next { s with
      inFlight := none,
      responses := s.responses ++
        [{ status := .ok, result := (BitVec.ofNat 32 (escapeCount (A.extractLsb' 0 32).toInt B C)).setWidth 64 }] }

/-- R160, R162 (d): the count is that of R160's loop on bit patterns, whatever NaN patterns its operations draw (R125). -/
def Obligations.MandelCountIsTheLiteralLoops : Prop :=
  ∀ nan : Nat → BitVec 64, (∀ k, fpIsNaN binary64 (nan k) = true) →
    ∀ (n : Int) (x0 y0 : BitVec 64), escapeCount n x0 y0 = literalCount nan n x0 y0

/-- R162, R164: every test before the count passes; the count stops at the bound or at the first test that fails; it is at
most max(n, 0), and 0 exactly when n is not positive. -/
def Obligations.MandelCountIsTheFirstFailedTest : Prop :=
  ∀ (n : Int) (x0 y0 : BitVec 64),
    (∀ j, j < escapeCount n x0 y0 → staysBounded (orbit x0 y0 j).1 (orbit x0 y0 j).2 = true) ∧
    ((escapeCount n x0 y0 : Int) < n →
      staysBounded (orbit x0 y0 (escapeCount n x0 y0)).1 (orbit x0 y0 (escapeCount n x0 y0)).2 = false) ∧
    (escapeCount n x0 y0 : Int) ≤ max n 0 ∧
    (escapeCount n x0 y0 = 0 ↔ n ≤ 0)

/-- R162 (b), R162 (c), R165: a NaN or infinite coordinate gives the count 1 when the bound is at least 1. -/
def Obligations.MandelNaNOrInfiniteSeedCountsOne : Prop :=
  ∀ (n : Int) (x0 y0 : BitVec 64), 1 ≤ n →
    (fpIsFinite binary64 x0 = false ∨ fpIsFinite binary64 y0 = false) → escapeCount n x0 y0 = 1

/-- R162 (a), R162 (e), R165: the zeros of either sign and the point (-2, 0), whose squared modulus is exactly 4.0, never
escape: the count is the bound, for every bound. -/
def Obligations.MandelBoundedOrbitsCountTheBound : Prop :=
  ∀ n : Nat,
    (∀ x0 y0 : BitVec 64, fpIsZero binary64 x0 = true → fpIsZero binary64 y0 = true → escapeCount n x0 y0 = n) ∧
    escapeCount n 0xC000000000000000 0x0000000000000000 = n

-- The palette (`43_palette.md`)

/-- R180, R181: `PAL16` answers `OK` with the colour of a signed index 0 to 15 and the sentinel for any other, and changes
nothing else. -/
def Obligations.Pal16AnswersColourOrSentinel : Prop :=
  ∀ (s : State) (A B C : Word64),
    let k := (A.extractLsb' 0 32).toInt
    decodeWord (5#3 ++ A ++ B ++ C) = .pal16 A B C ∧
    ∃ v : BitVec 32,
      exec (.pal16 A B C) s = .next { s with
        inFlight := none, responses := s.responses ++ [{ status := .ok, result := v.setWidth 64 }] } ∧
      (k = 0 → v = 0x00000000) ∧ (k = 1 → v = 0x00000080) ∧ (k = 2 → v = 0x00008000) ∧ (k = 3 → v = 0x00008080) ∧
      (k = 4 → v = 0x00800000) ∧ (k = 5 → v = 0x00800080) ∧ (k = 6 → v = 0x00808000) ∧ (k = 7 → v = 0x00808080) ∧
      (k = 8 → v = 0x00C0C0C0) ∧ (k = 9 → v = 0x000000FF) ∧ (k = 10 → v = 0x0000FF00) ∧ (k = 11 → v = 0x0000FFFF) ∧
      (k = 12 → v = 0x00FF0000) ∧ (k = 13 → v = 0x00FF00FF) ∧ (k = 14 → v = 0x00FFFF00) ∧ (k = 15 → v = 0x00FFFFFF) ∧
      (k < 0 ∨ 15 < k → v = 0xFFFFFFFF)

-- The byte-delta filter (`44_byte_delta_filter.md`)

/-- R193: the end state of an accepted `BDELTA` in closed form, its response, and its frame: every byte outside the
destination range and every other part of the state is as before. -/
def Obligations.ByteDeltaWritesTheDeltas : Prop :=
  ∀ (s : State) (A B C : Word64) (n : Nat),
    let src := operandAddr s.params A
    let dest := operandAddr s.params B
    (C.extractLsb' 0 32).toInt = n → 1 ≤ n → src + n ≤ s.params.memSize → dest + n ≤ s.params.memSize →
    (src + n ≤ dest ∨ dest + n ≤ src) →
      ∃ t, exec (.bdelta A B C) s = .next t ∧
        t = { s with mem := t.mem, inFlight := none, responses := s.responses ++ [{ status := .ok, result := 0 }] } ∧
        t.readByte dest = s.readByte src ∧
        (∀ i, 1 ≤ i → i ≤ n - 1 → t.readByte (dest + i) = s.readByte (src + i) - s.readByte (src + i - 1)) ∧
        ∀ a, (a < dest ∨ dest + n ≤ a) → t.readByte a = s.readByte a

/-- R191: the check, in its order, and that nothing but the response changes where it fails. -/
def Obligations.ByteDeltaChecksBeforeItRuns : Prop :=
  ∀ (s : State) (A B C : Word64),
    let src : Int := operandAddr s.params A
    let dest : Int := operandAddr s.params B
    let n := (C.extractLsb' 0 32).toInt
    let size : Int := s.params.memSize
    (n ≤ 0 → exec (.bdelta A B C) s = .next { s with
      inFlight := none, responses := s.responses ++ [{ status := .invalidArgument, result := 0 }] }) ∧
    (¬ n ≤ 0 → (size < src + n ∨ size < dest + n) → exec (.bdelta A B C) s = .next { s with
      inFlight := none, responses := s.responses ++ [{ status := .outOfBounds, result := 0 }] }) ∧
    (¬ n ≤ 0 → ¬ (size < src + n ∨ size < dest + n) → src < dest + n ∧ dest < src + n →
      exec (.bdelta A B C) s = .next { s with
        inFlight := none, responses := s.responses ++ [{ status := .invalidArgument, result := 0 }] }) ∧
    (¬ n ≤ 0 → ¬ (size < src + n ∨ size < dest + n) → ¬ (src < dest + n ∧ dest < src + n) →
      ∃ t, exec (.bdelta A B C) s = .next t ∧ t.responses = s.responses ++ [{ status := .ok, result := 0 }])

/-- R192: a running sum of the destination bytes gives the source bytes back, modulo 256. -/
def Obligations.RunningSumUndoesByteDelta : Prop :=
  ∀ (s t : State) (A B C : Word64), exec (.bdelta A B C) s = .next t →
    t.responses = s.responses ++ [{ status := .ok, result := 0 }] →
      ∀ i : Nat, (i : Int) < (C.extractLsb' 0 32).toInt →
        ((Finset.range (i + 1)).sum fun j => (t.readByte (operandAddr s.params B + j)).toNat) % 256 =
          (s.readByte (operandAddr s.params A + i)).toNat

/-- R20: the same `BDELTA` issued again gives the same response and leaves every byte as the first one left it. -/
def Obligations.RepeatedByteDeltaChangesNothing : Prop :=
  ∀ (s t u : State) (A B C : Word64) (r : Response), exec (.bdelta A B C) s = .next t → exec (.bdelta A B C) t = .next u →
    t.responses = s.responses ++ [r] → u.responses = t.responses ++ [r] ∧ ∀ a, u.readByte a = t.readByte a

/-- R20: where two memories agree on the source bytes, an accepted `BDELTA` leaves the same destination bytes in both. -/
def Obligations.ByteDeltaDependsOnSourceBytesOnly : Prop :=
  ∀ (s s' t t' : State) (A B C : Word64), s.params = s'.params →
    exec (.bdelta A B C) s = .next t → exec (.bdelta A B C) s' = .next t' →
    t.responses = s.responses ++ [{ status := .ok, result := 0 }] →
    (∀ a, inSourceOf s.params (.bdelta A B C) a = true → s.readByte a = s'.readByte a) →
      ∀ a, inDestOf s.params (.bdelta A B C) a = true → t.readByte a = t'.readByte a

-- The reserved code (`30_encoding.md`, `60_exceptions.md`)

/-- R75, R214: exactly the words with `op` = 7 are reserved, and such a command raises `IllegalOp` whatever its ports
hold: status 3, `R` = 0, and nothing else of the state changes but that the command is over. -/
def Obligations.ReservedCodeRaisesIllegalOp : Prop :=
  (∀ w : CmdWord, (∃ A B C, decodeWord w = .reserved A B C) ↔ w.extractLsb' 192 3 = 7#3) ∧
  statusCode .illegalOp = 3 ∧
  ∀ (s : State) (A B C : Word64), exec (.reserved A B C) s = .next { s with
    inFlight := none, responses := s.responses ++ [{ status := .illegalOp, result := 0 }] }

-- The machine as a whole

/-- R73, R76: the bits of the ports that an operation does not read have no effect, in any state. -/
def Obligations.IgnoredPortBitsHaveNoEffect : Prop :=
  ∀ (s : State) (A A' B B' C C' : Word64),
    let lowA := A.extractLsb' 0 32 = A'.extractLsb' 0 32
    let lowB := B.extractLsb' 0 32 = B'.extractLsb' 0 32
    let lowC := C.extractLsb' 0 32 = C'.extractLsb' 0 32
    let addr := fun P P' : Word64 => P.toNat % 2 ^ s.params.addrW = P'.toNat % 2 ^ s.params.addrW
    (lowA → lowB → exec (.addI32 A B C) s = exec (.addI32 A' B' C') s) ∧
    exec (.addI64 A B C) s = exec (.addI64 A B C') s ∧
    (lowA → lowB → exec (.addF32 A B C) s = exec (.addF32 A' B' C') s) ∧
    exec (.addF64 A B C) s = exec (.addF64 A B C') s ∧
    (lowA → exec (.mandelF64 A B C) s = exec (.mandelF64 A' B C) s) ∧
    (lowA → exec (.pal16 A B C) s = exec (.pal16 A' B' C') s) ∧
    (addr A A' → addr B B' → lowC → exec (.bdelta A B C) s = exec (.bdelta A' B' C') s) ∧
    exec (.reserved A B C) s = exec (.reserved A' B' C') s

/-- R248, R249, R213: every command, in every state, is answered: the machine goes on, idle, with one more response, and
the host's moves, the parameters and unwritten memory are as before. -/
def Obligations.EveryCommandIsAnswered : Prop :=
  ∀ (i : Instr) (s : State), ∃ (t : State) (r : Response), exec i s = .next t ∧ t.inFlight = none ∧
    t.responses = s.responses ++ [r] ∧ t.params = s.params ∧ t.host = s.host ∧ t.seed = s.seed

/-- R210, R215: six operations answer `OK` always; `BDELTA` answers `OK`, `InvalidArgument` or `OutOfBounds`; the reserved
code `IllegalOp` always. -/
def Obligations.StatusesEachOperationAnswers : Prop :=
  ∀ (i : Instr) (s : State), ∃ (t : State) (r : Response), exec i s = .next t ∧ t.responses = s.responses ++ [r] ∧
    match i with
    | .addI32 _ _ _ | .addI64 _ _ _ | .addF32 _ _ _ | .addF64 _ _ _ | .mandelF64 _ _ _ | .pal16 _ _ _ => r.status = .ok
    | .bdelta _ _ _ => r.status = .ok ∨ r.status = .invalidArgument ∨ r.status = .outOfBounds
    | .reserved _ _ _ => r.status = .illegalOp

/-- R213, R218: a command that faults has `R` = 0 and no other effect at all. -/
def Obligations.FaultingCommandHasNoEffect : Prop :=
  ∀ (i : Instr) (s t : State) (r : Response), exec i s = .next t → t.responses = s.responses ++ [r] → r.status ≠ .ok →
    r.result = 0 ∧ t = { s with inFlight := none, responses := s.responses ++ [{ status := r.status, result := 0 }] }

/-- R26: a command that is no `BDELTA` leaves every byte of memory alone. -/
def Obligations.OnlyByteDeltaWritesMemory : Prop :=
  ∀ (i : Instr) (s t : State), (∀ A B C, i ≠ .bdelta A B C) → exec i s = .next t →
    t.mem = s.mem ∧ ∀ a, t.readByte a = s.readByte a

/-- R20: the response to a command is a function of the command (and the parameters) alone: two states answer it alike,
but for the pattern of a NaN sum, which is a NaN both times (R125). -/
def Obligations.ResponseDependsOnTheCommandOnly : Prop :=
  ∀ (i : Instr) (s s' t t' : State) (r r' : Response), s.params = s'.params →
    exec i s = .next t → exec i s' = .next t' → t.responses = s.responses ++ [r] → t'.responses = s'.responses ++ [r'] →
      r = r' ∨
      (r.status = .ok ∧ r'.status = .ok ∧ ∃ A B C,
        (i = .addF32 A B C ∧ fpIsNaN binary32 (r.result.extractLsb' 0 32) = true ∧
          fpIsNaN binary32 (r'.result.extractLsb' 0 32) = true ∧ r.result.extractLsb' 32 32 = 0 ∧
          r'.result.extractLsb' 32 32 = 0) ∨
        (i = .addF64 A B C ∧ fpIsNaN binary64 r.result = true ∧ fpIsNaN binary64 r'.result = true))

/-- The invariant: parameters in R7's ranges, memory in its one form with no byte outside 0 to `MEM_SIZE`-1 (R40), `R` = 0
in every response that is not `OK` (R74). Every step keeps it, from every state that has it. -/
def Obligations.EveryStepKeepsTheInvariant : Prop :=
  ∀ s t : State, s.Inv → step s = .next t → t.Inv

/-- The reset state has the invariant. (Its `MEM_SIZE` is the model's choice, log 3.) -/
def Obligations.ResetStateHasTheInvariant : Prop := State.reset.Inv

/-- R30, R7: after reset the block is idle with no response given, nobody has written memory, and `ADDR_W` has its default
32. Empty lists of moves and responses are the model's choice (logs 2, 11). -/
def Obligations.ResetStateIsIdle : Prop :=
  State.reset.inFlight = none ∧ State.reset.responses = [] ∧ State.reset.host = [] ∧ State.reset.params.addrW = 32 ∧
  (∀ a, State.reset.readByte a = Config.unwrittenByte State.reset.seed a) ∧ step State.reset = .next State.reset

/-- R24, R30: no step changes the parameters, nor what unwritten memory holds. -/
def Obligations.NoStepChangesTheParameters : Prop :=
  ∀ s t : State, step s = .next t → t.params = s.params ∧ t.seed = s.seed

/-- R5, R71: a step adds at most one response, and adds one only by running the command in flight, after which the block
is idle. -/
def Obligations.ResponsesComeFromCommandsOnly : Prop :=
  ∀ s t : State, step s = .next t →
    t.responses = s.responses ∨
    ∃ (w : CmdWord) (r : Response), s.inFlight = some w ∧ exec (decodeWord w) s = .next t ∧ t.inFlight = none ∧
      t.responses = s.responses ++ [r]

/-- R28, R242, R249: a byte of memory changes only where a command in flight that is run, or reset, in this step is a `BDELTA`
and the byte lies in its destination range, or where the move the host makes in this step writes that byte. A waiting move
(not `early`, a command in flight) excuses nothing. -/
def Obligations.MemoryChangesOnlyByHostOrByteDelta : Prop :=
  ∀ (s t : State) (a : Nat), step s = .next t → t.readByte a ≠ s.readByte a →
    (∃ w, s.inFlight = some w ∧ inDestOf s.params (decodeWord w) a = true ∧
      ∀ m ∈ s.host.head?, m.early = true → m.action = .reset) ∨
    ∃ m ∈ s.host.head?, (s.inFlight = none ∨ m.early = true) ∧ m.action = .write a (t.readByte a)

/-- R242: a reset during a command abandons it: no response, an idle block, every byte outside the destination range of a
`BDELTA` unchanged, and every byte inside the range of one that passes its check a free value. That one that would fault
leaves every byte unchanged is DEDUCED (log 8). -/
def Obligations.ResetDuringACommandAbandonsIt : Prop :=
  ∀ (s : State) (w : CmdWord) (rest : List HostMove), s.inFlight = some w →
    s.host = { early := true, action := .reset } :: rest →
      ∃ t, step s = .next t ∧ t = { s with inFlight := none, host := rest, mem := t.mem, draws := t.draws } ∧
        (∀ a, inDestOf s.params (decodeWord w) a = false → t.readByte a = s.readByte a) ∧
        ∀ A B C : Word64, decodeWord w = .bdelta A B C →
          match byteDeltaCheck s.params.memSize (operandAddr s.params A) (operandAddr s.params B) (operandSigned32 C) with
          | none => ∀ a, inDestOf s.params (decodeWord w) a = true → t.readByte a = Config.abandonedByte s.draws w a
          | some _ => ∀ a, t.readByte a = s.readByte a

/-- R41, R50, R249: the step makes every access of the host that is no race: one while the block is idle, or one during a
command that is no `BDELTA` or, of a `BDELTA`, outside the destination range (a write: outside the source range too). A
read changes nothing but the host's list; a write makes `MEM[a]` equal to `v` and changes no other byte. That an address
outside memory is the fault `addressOutsideMemory` is the model's choice (log 20), and so is the mark `early` saying
nothing while the block is idle (log 21). -/
def Obligations.AllowedHostAccessIsMade : Prop :=
  ∀ (s : State) (early : Bool) (rest : List HostMove) (a : Nat) (v : Byte),
    (s.host = { early := early, action := .read a } :: rest →
      (s.inFlight = none ∨
        early = true ∧ ∃ w, s.inFlight = some w ∧ inDestOf s.params (decodeWord w) a = false) →
      (a < s.params.memSize → step s = .next { s with host := rest }) ∧
      (s.params.memSize ≤ a → step s = .fault (.addressOutsideMemory a))) ∧
    (s.host = { early := early, action := .write a v } :: rest →
      (s.inFlight = none ∨
        early = true ∧ ∃ w, s.inFlight = some w ∧ inSourceOf s.params (decodeWord w) a = false ∧
          inDestOf s.params (decodeWord w) a = false) →
      (a < s.params.memSize →
        ∃ t, step s = .next t ∧ t = { s with host := rest, mem := t.mem } ∧ t.readByte a = v ∧
          ∀ b, b ≠ a → t.readByte b = s.readByte b) ∧
      (s.params.memSize ≤ a → step s = .fault (.addressOutsideMemory a)))

/-- R50, R246; that the model refuses such a race, and not the other treatment R50 allows, is its choice (log 9): another
agent's write to the source or destination range, or read of the destination range, of a `BDELTA` in flight is refused by
name; a read of the source range alone is harmless. -/
def Obligations.RacingAccessIsRefused : Prop :=
  ∀ (s : State) (w : CmdWord) (A B C : Word64) (rest : List HostMove) (a : Nat) (v : Byte),
    s.inFlight = some w → decodeWord w = .bdelta A B C →
      (s.host = { early := true, action := .write a v } :: rest →
        inSourceOf s.params (.bdelta A B C) a = true ∨ inDestOf s.params (.bdelta A B C) a = true →
        step s = .refused (.accessRace a)) ∧
      (s.host = { early := true, action := .read a } :: rest → inDestOf s.params (.bdelta A B C) a = true →
        step s = .refused (.accessRace a)) ∧
      (s.host = { early := true, action := .read a } :: rest → inDestOf s.params (.bdelta A B C) a = false →
        a < s.params.memSize → step s = .next { s with host := rest })

/-- R29; that the model refuses the move by name is its choice (log 10): a second command during the first is not accepted. -/
def Obligations.SecondCommandIsNotAccepted : Prop :=
  ∀ (s : State) (w w' : CmdWord) (rest : List HostMove), s.inFlight = some w →
    s.host = { early := true, action := .issue w' } :: rest → step s = .refused .commandInFlight

/-- R41: the memory primitives, on every address: inside memory a read answers `MEM[a]` and a write makes `MEM[a]` equal to
`v` and changes nothing else; outside, both refuse rather than wrap. -/
def Obligations.MemoryPrimitivesReadAndWriteOneByte : Prop :=
  ∀ (s : State) (a : Nat) (v : Byte),
    (a < s.params.memSize →
      memRead s a = .ok (s.readByte a) ∧
      ∃ t, memWrite s a v = .ok t ∧ t = { s with mem := t.mem } ∧ t.readByte a = v ∧
        ∀ b, b ≠ a → t.readByte b = s.readByte b) ∧
    (s.params.memSize ≤ a →
      memRead s a = .error (.addressOutsideMemory a) ∧ memWrite s a v = .error (.addressOutsideMemory a))
end

