-- ==== Sys2Proof/Laws/State.lean ====
section
/-! SUPPORT. One lemma per field of State per named update. -/

namespace Sys2Proof.Machine

@[simp] theorem State.setByte_params (s : State) (a : Nat) (v : Byte) :
    (s.setByte a v).params = s.params := rfl
@[simp] theorem State.setByte_mem (s : State) (a : Nat) (v : Byte) :
    (s.setByte a v).mem = s.mem.insert a v := rfl
@[simp] theorem State.setByte_inFlight (s : State) (a : Nat) (v : Byte) :
    (s.setByte a v).inFlight = s.inFlight := rfl
@[simp] theorem State.setByte_host (s : State) (a : Nat) (v : Byte) :
    (s.setByte a v).host = s.host := rfl
@[simp] theorem State.setByte_responses (s : State) (a : Nat) (v : Byte) :
    (s.setByte a v).responses = s.responses := rfl
@[simp] theorem State.setByte_seed (s : State) (a : Nat) (v : Byte) :
    (s.setByte a v).seed = s.seed := rfl
@[simp] theorem State.setByte_draws (s : State) (a : Nat) (v : Byte) :
    (s.setByte a v).draws = s.draws := rfl

@[simp] theorem State.respond_params (s : State) (st : Status) (r : Word64) :
    (s.respond st r).params = s.params := rfl
@[simp] theorem State.respond_mem (s : State) (st : Status) (r : Word64) :
    (s.respond st r).mem = s.mem := rfl
@[simp] theorem State.respond_inFlight (s : State) (st : Status) (r : Word64) :
    (s.respond st r).inFlight = none := rfl
@[simp] theorem State.respond_host (s : State) (st : Status) (r : Word64) :
    (s.respond st r).host = s.host := rfl
@[simp] theorem State.respond_responses (s : State) (st : Status) (r : Word64) :
    (s.respond st r).responses = s.responses ++ [{ status := st, result := r }] := rfl
@[simp] theorem State.respond_seed (s : State) (st : Status) (r : Word64) :
    (s.respond st r).seed = s.seed := rfl
@[simp] theorem State.respond_draws (s : State) (st : Status) (r : Word64) :
    (s.respond st r).draws = s.draws := rfl

@[simp] theorem State.raiseFault_params (s : State) (st : Status) :
    (s.raiseFault st).params = s.params := rfl
@[simp] theorem State.raiseFault_mem (s : State) (st : Status) :
    (s.raiseFault st).mem = s.mem := rfl
@[simp] theorem State.raiseFault_inFlight (s : State) (st : Status) :
    (s.raiseFault st).inFlight = none := rfl
@[simp] theorem State.raiseFault_host (s : State) (st : Status) :
    (s.raiseFault st).host = s.host := rfl
@[simp] theorem State.raiseFault_responses (s : State) (st : Status) :
    (s.raiseFault st).responses = s.responses ++ [{ status := st, result := 0 }] := rfl
@[simp] theorem State.raiseFault_seed (s : State) (st : Status) :
    (s.raiseFault st).seed = s.seed := rfl
@[simp] theorem State.raiseFault_draws (s : State) (st : Status) :
    (s.raiseFault st).draws = s.draws := rfl

@[simp] theorem State.countDraw_params (s : State) :
    (s.countDraw).params = s.params := rfl
@[simp] theorem State.countDraw_mem (s : State) :
    (s.countDraw).mem = s.mem := rfl
@[simp] theorem State.countDraw_inFlight (s : State) :
    (s.countDraw).inFlight = s.inFlight := rfl
@[simp] theorem State.countDraw_host (s : State) :
    (s.countDraw).host = s.host := rfl
@[simp] theorem State.countDraw_responses (s : State) :
    (s.countDraw).responses = s.responses := rfl
@[simp] theorem State.countDraw_seed (s : State) :
    (s.countDraw).seed = s.seed := rfl
@[simp] theorem State.countDraw_draws (s : State) :
    (s.countDraw).draws = s.draws + 1 := rfl

@[simp] theorem State.accept_params (s : State) (w : CmdWord) :
    (s.accept w).params = s.params := rfl
@[simp] theorem State.accept_mem (s : State) (w : CmdWord) :
    (s.accept w).mem = s.mem := rfl
@[simp] theorem State.accept_inFlight (s : State) (w : CmdWord) :
    (s.accept w).inFlight = some w := rfl
@[simp] theorem State.accept_host (s : State) (w : CmdWord) :
    (s.accept w).host = s.host := rfl
@[simp] theorem State.accept_responses (s : State) (w : CmdWord) :
    (s.accept w).responses = s.responses := rfl
@[simp] theorem State.accept_seed (s : State) (w : CmdWord) :
    (s.accept w).seed = s.seed := rfl
@[simp] theorem State.accept_draws (s : State) (w : CmdWord) :
    (s.accept w).draws = s.draws := rfl

@[simp] theorem State.resetBlock_params (s : State) :
    (s.resetBlock).params = s.params := rfl
@[simp] theorem State.resetBlock_mem (s : State) :
    (s.resetBlock).mem = s.mem := rfl
@[simp] theorem State.resetBlock_inFlight (s : State) :
    (s.resetBlock).inFlight = none := rfl
@[simp] theorem State.resetBlock_host (s : State) :
    (s.resetBlock).host = s.host := rfl
@[simp] theorem State.resetBlock_responses (s : State) :
    (s.resetBlock).responses = s.responses := rfl
@[simp] theorem State.resetBlock_seed (s : State) :
    (s.resetBlock).seed = s.seed := rfl
@[simp] theorem State.resetBlock_draws (s : State) :
    (s.resetBlock).draws = s.draws := rfl

@[simp] theorem State.popMove_params (s : State) :
    (s.popMove).params = s.params := rfl
@[simp] theorem State.popMove_mem (s : State) :
    (s.popMove).mem = s.mem := rfl
@[simp] theorem State.popMove_inFlight (s : State) :
    (s.popMove).inFlight = s.inFlight := rfl
@[simp] theorem State.popMove_host (s : State) :
    (s.popMove).host = s.host.tail := rfl
@[simp] theorem State.popMove_responses (s : State) :
    (s.popMove).responses = s.responses := rfl
@[simp] theorem State.popMove_seed (s : State) :
    (s.popMove).seed = s.seed := rfl
@[simp] theorem State.popMove_draws (s : State) :
    (s.popMove).draws = s.draws := rfl

@[simp] theorem State.withCommand_params (s : State) (w : CmdWord) :
    (s.withCommand w).params = s.params := rfl
@[simp] theorem State.withCommand_mem (s : State) (w : CmdWord) :
    (s.withCommand w).mem = s.mem := rfl
@[simp] theorem State.withCommand_inFlight (s : State) (w : CmdWord) :
    (s.withCommand w).inFlight = some w := rfl
@[simp] theorem State.withCommand_host (s : State) (w : CmdWord) :
    (s.withCommand w).host = s.host.dropWhile (fun m => m.early) := rfl
@[simp] theorem State.withCommand_responses (s : State) (w : CmdWord) :
    (s.withCommand w).responses = s.responses := rfl
@[simp] theorem State.withCommand_seed (s : State) (w : CmdWord) :
    (s.withCommand w).seed = s.seed := rfl
@[simp] theorem State.withCommand_draws (s : State) (w : CmdWord) :
    (s.withCommand w).draws = s.draws := rfl

@[simp] theorem State.abandonRange_params (s : State) (w : CmdWord) (a n : Nat) :
    (s.abandonRange w a n).params = s.params := by
  induction n with
  | zero => rfl
  | succ n ih => simpa [State.abandonRange] using ih

@[simp] theorem State.abandonRange_inFlight (s : State) (w : CmdWord) (a n : Nat) :
    (s.abandonRange w a n).inFlight = s.inFlight := by
  induction n with
  | zero => rfl
  | succ n ih => simpa [State.abandonRange] using ih

@[simp] theorem State.abandonRange_host (s : State) (w : CmdWord) (a n : Nat) :
    (s.abandonRange w a n).host = s.host := by
  induction n with
  | zero => rfl
  | succ n ih => simpa [State.abandonRange] using ih

@[simp] theorem State.abandonRange_responses (s : State) (w : CmdWord) (a n : Nat) :
    (s.abandonRange w a n).responses = s.responses := by
  induction n with
  | zero => rfl
  | succ n ih => simpa [State.abandonRange] using ih

@[simp] theorem State.abandonRange_seed (s : State) (w : CmdWord) (a n : Nat) :
    (s.abandonRange w a n).seed = s.seed := by
  induction n with
  | zero => rfl
  | succ n ih => simpa [State.abandonRange] using ih

@[simp] theorem State.abandonRange_draws (s : State) (w : CmdWord) (a n : Nat) :
    (s.abandonRange w a n).draws = s.draws := by
  induction n with
  | zero => rfl
  | succ n ih => simpa [State.abandonRange] using ih

end Sys2Proof.Machine
end

