-- ==== Sys2Proof/Laws/Ops.lean ====
section
/-! SUPPORT. For each shared operation, once, everything it can do. -/

namespace Sys2Proof.Machine

/-- Reading after a write. -/
theorem State.readByte_setByte (s : State) (a b : Nat) (v : Byte) :
    (s.setByte a v).readByte b = if b = a then v else s.readByte b := by
  unfold State.readByte State.setByte
  by_cases h : b = a
  · subst h; simp [Memory.lookup_insert_same]
  · simp [Memory.lookup_insert_other _ _ _ _ h, h]

/-- Memory and seed are all that reading a byte looks at. -/
theorem State.readByte_congr (s t : State) (hm : s.mem = t.mem) (hs : s.seed = t.seed) (a : Nat) :
    s.readByte a = t.readByte a := by
  simp [State.readByte, hm, hs]

@[simp] theorem State.readByte_respond (s : State) (st : Status) (r : Word64) (a : Nat) :
    (s.respond st r).readByte a = s.readByte a := rfl
@[simp] theorem State.readByte_raiseFault (s : State) (st : Status) (a : Nat) :
    (s.raiseFault st).readByte a = s.readByte a := rfl
@[simp] theorem State.readByte_countDraw (s : State) (a : Nat) : s.countDraw.readByte a = s.readByte a := rfl
@[simp] theorem State.readByte_accept (s : State) (w : CmdWord) (a : Nat) :
    (s.accept w).readByte a = s.readByte a := rfl
@[simp] theorem State.readByte_resetBlock (s : State) (a : Nat) : s.resetBlock.readByte a = s.readByte a := rfl
@[simp] theorem State.readByte_popMove (s : State) (a : Nat) : s.popMove.readByte a = s.readByte a := rfl
@[simp] theorem State.readByte_withCommand (s : State) (w : CmdWord) (a : Nat) :
    (s.withCommand w).readByte a = s.readByte a := rfl

/-- All that `memRead` can answer (R41). -/
theorem memRead_ok_iff (s : State) (a : Nat) (v : Byte) :
    memRead s a = .ok v ↔ a < s.params.memSize ∧ v = s.readByte a := by
  unfold memRead
  split <;> simp_all [eq_comm]

theorem memRead_error_iff (s : State) (a : Nat) (e : Fault) :
    memRead s a = .error e ↔ ¬ a < s.params.memSize ∧ e = .addressOutsideMemory a := by
  unfold memRead
  split <;> simp_all [eq_comm]

/-- All that `memWrite` can answer (R41). -/
theorem memWrite_ok_iff (s t : State) (a : Nat) (v : Byte) :
    memWrite s a v = .ok t ↔ a < s.params.memSize ∧ t = s.setByte a v := by
  unfold memWrite
  split <;> simp_all [eq_comm]

theorem memWrite_error_iff (s : State) (a : Nat) (v : Byte) (e : Fault) :
    memWrite s a v = .error e ↔ ¬ a < s.params.memSize ∧ e = .addressOutsideMemory a := by
  unfold memWrite
  split <;> simp_all [eq_comm]

/-- What reading gives after a range has been abandoned (R242): free values inside, the old bytes outside. -/
theorem State.readByte_abandonRange (s : State) (w : CmdWord) (a n b : Nat) :
    (s.abandonRange w a n).readByte b =
      if a ≤ b ∧ b < a + n then Config.abandonedByte s.draws w b else s.readByte b := by
  induction n with
  | zero => rw [if_neg (by omega)]; rfl
  | succ n ih =>
    rw [State.abandonRange, State.readByte_setByte, ih]
    by_cases h : b = a + n
    · rw [if_pos h, if_pos (by omega), h]
    · rw [if_neg h]
      by_cases h' : a ≤ b ∧ b < a + n
      · rw [if_pos h', if_pos (by omega)]
      · rw [if_neg h', if_neg (by omega)]

/-- Abandoning a range changes nothing but memory. -/
theorem State.abandonRange_frame (s : State) (w : CmdWord) (a n : Nat) :
    s.abandonRange w a n = { s with mem := (s.abandonRange w a n).mem } := by
  induction n with
  | zero => rfl
  | succ n ih =>
    rw [State.abandonRange, ih]
    rfl

/-- Abandoning a range keeps the one form of memory. -/
theorem State.abandonRange_wf (s : State) (w : CmdWord) (a n : Nat) (h : Memory.wf s.mem) :
    Memory.wf (s.abandonRange w a n).mem := by
  induction n with
  | zero => exact h
  | succ n ih => exact Memory.insert_wf _ _ _ ih

/-- Every entry after abandoning a range is an old one or lies in the range. -/
theorem State.mem_abandonRange (s : State) (w : CmdWord) (a n : Nat) (x : Host.Cell)
    (h : x ∈ (s.abandonRange w a n).mem) : x ∈ s.mem ∨ (a ≤ x.1 ∧ x.1 < a + n) := by
  induction n with
  | zero => exact .inl h
  | succ n ih =>
    rcases Memory.mem_insert _ _ _ _ h with rfl | h
    · exact .inr ⟨by simp, by simp⟩
    · rcases ih h with h | h
      · exact .inl h
      · exact .inr (by omega)

end Sys2Proof.Machine
end

