-- ==== Sys2Proof/Laws/ByteDelta.lean ====
section
/-! SUPPORT. What the operations of `BDELTA` can do: the check (R191), one position, the loop and the whole filter
(R192). -/

namespace Sys2Proof.Machine

/-- The check passes exactly on a positive length and two ranges inside memory that share no byte (R191). -/
theorem byteDeltaCheck_none_iff (memSize src dest : Nat) (n : Int) :
    byteDeltaCheck memSize src dest n = none ↔
      0 < n ∧ (src : Int) + n ≤ memSize ∧ (dest : Int) + n ≤ memSize ∧
        ((src : Int) + n ≤ dest ∨ (dest : Int) + n ≤ src) := by
  unfold byteDeltaCheck
  split
  · simp; omega
  · split
    · simp; omega
    · split
      · simp; omega
      · simp; omega

/-- The check never answers `OK` (R211, R212). -/
theorem byteDeltaCheck_ne_ok (memSize src dest : Nat) (n : Int) :
    byteDeltaCheck memSize src dest n ≠ some .ok := by
  unfold byteDeltaCheck
  split
  · simp
  · split
    · simp
    · split <;> simp

/-- All that one position can do: both reads and the write lie inside memory. -/
theorem byteDeltaPosition_ok_iff (src dest i : Nat) (s t : State) :
    byteDeltaPosition src dest i s = .ok t ↔
      src + i < s.params.memSize ∧ src + i - 1 < s.params.memSize ∧ dest + i < s.params.memSize ∧
        t = s.setByte (dest + i) (s.readByte (src + i) - s.readByte (src + i - 1)) := by
  unfold byteDeltaPosition memRead memWrite
  by_cases h1 : src + i < s.params.memSize
  · have h2 : src + i - 1 < s.params.memSize := by omega
    by_cases h3 : dest + i < s.params.memSize <;> simp [h1, h2, h3, eq_comm]
  · simp [h1]

/-- The loop answers a state whenever its positions lie inside memory. -/
theorem byteDeltaLoop_completes (src dest k i : Nat) (s : State) (hs : src + i + k ≤ s.params.memSize)
    (hd : dest + i + k ≤ s.params.memSize) : ∃ t, byteDeltaLoop src dest k i s = .ok t := by
  induction k generalizing i s with
  | zero => exact ⟨s, rfl⟩
  | succ k ih =>
    have hp := (byteDeltaPosition_ok_iff src dest i s _).2 ⟨by omega, by omega, by omega, rfl⟩
    rw [byteDeltaLoop, hp]
    exact ih (i + 1) _ (by simpa using by omega) (by simpa using by omega)

/-- A property of states that the write of one destination byte keeps is kept by the loop. -/
theorem byteDeltaLoop_induct (P : State → Prop) (src dest k i : Nat) (s t : State)
    (h : byteDeltaLoop src dest k i s = .ok t) (hP : P s)
    (step : ∀ u a v, P u → dest + i ≤ a → a < dest + i + k → a < u.params.memSize → P (u.setByte a v)) : P t := by
  induction k generalizing i s with
  | zero =>
    simp only [byteDeltaLoop, Except.ok.injEq] at h
    exact h ▸ hP
  | succ k ih =>
    rw [byteDeltaLoop] at h
    split at h
    · cases h
    · rename_i s' hp
      obtain ⟨_, _, hd, rfl⟩ := (byteDeltaPosition_ok_iff src dest i s s').1 hp
      exact ih (i + 1) _ h (step _ _ _ hP (by omega) (by omega) hd)
        (fun u a v hu h1 h2 h3 => step u a v hu (by omega) (by omega) h3)

/-- The loop's effect on memory, where its source positions share no byte with its destination positions: inside the
destination the differences of the bytes before, outside the bytes before (R193). -/
theorem byteDeltaLoop_readByte (src dest k i : Nat) (s t : State) (h : byteDeltaLoop src dest k i s = .ok t)
    (hi : 1 ≤ i) (hdis : src + i + k ≤ dest + i ∨ dest + i + k < src + i) (a : Nat) :
    t.readByte a = if dest + i ≤ a ∧ a < dest + i + k then
        s.readByte (src + (a - dest)) - s.readByte (src + (a - dest) - 1) else s.readByte a := by
  induction k generalizing i s with
  | zero =>
    simp only [byteDeltaLoop, Except.ok.injEq] at h
    rw [← h, if_neg (by omega)]
  | succ k ih =>
    rw [byteDeltaLoop] at h
    split at h
    · cases h
    · rename_i s' hp
      obtain ⟨_, _, _, rfl⟩ := (byteDeltaPosition_ok_iff src dest i s s').1 hp
      rw [ih (i + 1) _ h (by omega) (by omega)]
      simp only [State.readByte_setByte]
      by_cases ha : a = dest + i
      · subst ha
        rw [if_neg (by omega), if_pos rfl, if_pos (by omega), Nat.add_sub_cancel_left]
      · by_cases hin : dest + i ≤ a ∧ a < dest + i + (k + 1)
        · rw [if_pos (by omega), if_pos hin, if_neg (by omega), if_neg (by omega)]
        · rw [if_neg (by omega), if_neg hin, if_neg ha]

/-- All that the filter can do: the first byte is copied, then the loop runs. -/
theorem byteDeltaFilter_ok_iff (src dest n : Nat) (s t : State) :
    byteDeltaFilter src dest n s = .ok t ↔
      src < s.params.memSize ∧ dest < s.params.memSize ∧
        byteDeltaLoop src dest (n - 1) 1 (s.setByte dest (s.readByte src)) = .ok t := by
  unfold byteDeltaFilter memRead memWrite
  by_cases h1 : src < s.params.memSize
  · by_cases h2 : dest < s.params.memSize <;> simp [h1, h2]
  · simp [h1]

/-- The filter answers a state whenever both ranges lie inside memory (R210: "an access that has been started cannot
fail"). -/
theorem byteDeltaFilter_completes (src dest n : Nat) (s : State) (hn : 1 ≤ n) (hs : src + n ≤ s.params.memSize)
    (hd : dest + n ≤ s.params.memSize) : ∃ t, byteDeltaFilter src dest n s = .ok t := by
  obtain ⟨t, ht⟩ := byteDeltaLoop_completes src dest (n - 1) 1 (s.setByte dest (s.readByte src))
    (by simpa using by omega) (by simpa using by omega)
  exact ⟨t, (byteDeltaFilter_ok_iff src dest n s t).2 ⟨by omega, by omega, ht⟩⟩

/-- A property of states that the write of one byte of the destination range keeps is kept by the filter. -/
theorem byteDeltaFilter_induct (P : State → Prop) (src dest n : Nat) (s t : State) (hn : 1 ≤ n)
    (h : byteDeltaFilter src dest n s = .ok t) (hP : P s)
    (step : ∀ u a v, P u → dest ≤ a → a < dest + n → a < u.params.memSize → P (u.setByte a v)) : P t := by
  obtain ⟨_, h2, h3⟩ := (byteDeltaFilter_ok_iff src dest n s t).1 h
  exact byteDeltaLoop_induct P src dest (n - 1) 1 _ t h3 (step _ _ _ hP (by omega) (by omega) h2)
    (fun u a v hu h4 h5 h6 => step u a v hu (by omega) (by omega) h6)

/-- The filter changes memory only. -/
theorem byteDeltaFilter_frame (src dest n : Nat) (s t : State) (hn : 1 ≤ n)
    (h : byteDeltaFilter src dest n s = .ok t) :
    t.params = s.params ∧ t.inFlight = s.inFlight ∧ t.host = s.host ∧ t.responses = s.responses ∧ t.seed = s.seed ∧
      t.draws = s.draws :=
  byteDeltaFilter_induct (fun u => u.params = s.params ∧ u.inFlight = s.inFlight ∧ u.host = s.host ∧
    u.responses = s.responses ∧ u.seed = s.seed ∧ u.draws = s.draws) src dest n s t hn h (by simp)
    (fun u a v hu _ _ _ => by simpa using hu)

/-- The filter keeps memory's one form. -/
theorem byteDeltaFilter_wf (src dest n : Nat) (s t : State) (hn : 1 ≤ n) (h : byteDeltaFilter src dest n s = .ok t)
    (hw : Memory.wf s.mem) : Memory.wf t.mem :=
  byteDeltaFilter_induct (fun u => Memory.wf u.mem) src dest n s t hn h hw
    (fun u a v hu _ _ _ => Memory.insert_wf u.mem a v hu)

/-- Every entry after the filter is an old one or lies in the destination range. -/
theorem byteDeltaFilter_mem (src dest n : Nat) (s t : State) (hn : 1 ≤ n) (h : byteDeltaFilter src dest n s = .ok t)
    (x : Host.Cell) (hx : x ∈ t.mem) : x ∈ s.mem ∨ (dest ≤ x.1 ∧ x.1 < dest + n) := by
  refine byteDeltaFilter_induct (fun u => ∀ y ∈ u.mem, y ∈ s.mem ∨ (dest ≤ y.1 ∧ y.1 < dest + n)) src dest n s t hn h
    (fun y hy => .inl hy) (fun u a v hu h1 h2 _ y hy => ?_) x hx
  rcases Memory.mem_insert _ _ _ _ hy with rfl | hy
  · exact .inr ⟨h1, h2⟩
  · exact hu y hy

/-- What reading gives after the filter has run on two ranges that share no byte. -/
theorem byteDeltaFilter_readByte (src dest n : Nat) (s t : State) (hn : 1 ≤ n)
    (h : byteDeltaFilter src dest n s = .ok t) (hdis : src + n ≤ dest ∨ dest + n ≤ src) (a : Nat) :
    t.readByte a = if a = dest then s.readByte src
      else if dest < a ∧ a < dest + n then s.readByte (src + (a - dest)) - s.readByte (src + (a - dest) - 1)
      else s.readByte a := by
  obtain ⟨_, _, h3⟩ := (byteDeltaFilter_ok_iff src dest n s t).1 h
  rw [byteDeltaLoop_readByte src dest (n - 1) 1 _ t h3 (by omega) (by omega)]
  simp only [State.readByte_setByte]
  by_cases ha : a = dest
  · rw [if_neg (by omega), if_pos ha, if_pos ha]
  · by_cases hin : dest < a ∧ a < dest + n
    · rw [if_pos (by omega), if_neg ha, if_pos hin, if_neg (by omega), if_neg (by omega)]
    · rw [if_neg (by omega), if_neg ha, if_neg ha, if_neg hin]

end Sys2Proof.Machine
end

