-- ==== Sys2Proof/Laws/Decode.lean ====
section
/-! SUPPORT. The fields of a command word that was put together from its fields. -/

namespace Sys2Proof

theorem opField_commandWord (op : BitVec 3) (a b c : Word64) : opField (commandWord op a b c) = op := by
  unfold opField commandWord
  ext i hi
  simp only [BitVec.getElem_extractLsb', BitVec.getLsbD_append]
  simp [show ¬ 192 + i < 64 by omega, show ¬ 192 + i - 64 < 64 by omega, show ¬ 192 + i - 64 - 64 < 64 by omega,
    show 192 + i - 64 - 64 - 64 = i by omega, hi]

theorem portA_commandWord (op : BitVec 3) (a b c : Word64) : portA (commandWord op a b c) = a := by
  unfold portA commandWord
  ext i hi
  simp only [BitVec.getElem_extractLsb', BitVec.getLsbD_append]
  simp [show ¬ 128 + i < 64 by omega, show ¬ 128 + i - 64 < 64 by omega,  show 128 + i - 64 - 64 = i by omega, hi]

theorem portB_commandWord (op : BitVec 3) (a b c : Word64) : portB (commandWord op a b c) = b := by
  unfold portB commandWord
  ext i hi
  simp only [BitVec.getElem_extractLsb', BitVec.getLsbD_append]
  simp [show ¬ 64 + i < 64 by omega, show 64 + i - 64 = i by omega, hi]

theorem portC_commandWord (op : BitVec 3) (a b c : Word64) : portC (commandWord op a b c) = c := by
  unfold portC commandWord
  ext i hi
  simp only [BitVec.getElem_extractLsb', BitVec.getLsbD_append]
  simp [hi]

end Sys2Proof
end

