-- ==== Sys2Proof/Laws/Float.lean ====
section
/-! SUPPORT. The fields of a packed datum, and the logarithm of the rounding. -/

namespace Sys2Proof.Machine

/-- The halving logarithm is the logarithm, on its range. -/
theorem log2Levels_eq (j n : Nat) (h : n < 2 ^ 2 ^ j) : log2Levels j n = Nat.log2 n := by
  induction j generalizing n with
  | zero =>
    have : n = 0 ∨ n = 1 := by simp at h; omega
    rcases this with rfl | rfl <;> rfl
  | succ j ih =>
    have hsplit : 2 ^ 2 ^ (j + 1) = 2 ^ 2 ^ j * 2 ^ 2 ^ j := by rw [← Nat.pow_add, Nat.pow_succ]; congr 1; omega
    have hpos : 0 < 2 ^ 2 ^ j := Nat.two_pow_pos _
    rw [log2Levels, Nat.shiftRight_eq_div_pow]
    split
    · rename_i h0
      exact ih n ((Nat.div_eq_zero_iff_lt hpos).1 h0)
    · rename_i h0
      have hlt : n / 2 ^ 2 ^ j < 2 ^ 2 ^ j := Nat.div_lt_of_lt_mul (hsplit ▸ h)
      rw [ih _ hlt]
      have hn : n ≠ 0 := fun hz => h0 (by simp [hz])
      symm
      rw [Nat.log2_eq_iff hn]
      have h1 := Nat.log2_self_le h0
      have h2 := Nat.lt_log2_self (n := n / 2 ^ 2 ^ j)
      rw [Nat.pow_add, Nat.add_assoc, Nat.pow_add]
      constructor
      · calc 2 ^ 2 ^ j * 2 ^ (n / 2 ^ 2 ^ j).log2 ≤ 2 ^ 2 ^ j * (n / 2 ^ 2 ^ j) := Nat.mul_le_mul_left _ h1
          _ ≤ n := Nat.mul_div_le _ _
      · exact Nat.lt_of_lt_of_le (Nat.lt_mul_div_succ _ hpos) (Nat.mul_le_mul_left _ h2)

/-- `floorLog2` is the floor of the logarithm (R123's `floor(log2(a))`). -/
theorem floorLog2_eq (n : Nat) : floorLog2 n = Nat.log2 n := by
  unfold floorLog2
  split
  · rename_i h
    rw [Nat.shiftRight_eq_div_pow] at h
    exact log2Levels_eq 13 n ((Nat.div_eq_zero_iff_lt (Nat.two_pow_pos _)).1 h)
  · rfl

/-- The sign of a packed datum. -/
theorem fpSign_pack (F : Format) (s : Bool) (e f : Nat) : fpSign F (fpPack F s e f) = s := by
  simp only [fpSign, fpPack, BitVec.getLsbD_append]
  simp

/-- The exponent field of a packed datum. -/
theorem fpExp_pack (F : Format) (s : Bool) (e f : Nat) (h : e < 2 ^ F.expBits) : fpExp F (fpPack F s e f) = e := by
  have : (fpPack F s e f).extractLsb' F.fracBits F.expBits = BitVec.ofNat F.expBits e := by
    ext i hi
    simp only [fpPack, BitVec.getElem_extractLsb', BitVec.getLsbD_append]
    simp [hi]
  rw [fpExp, this, BitVec.toNat_ofNat, Nat.mod_eq_of_lt h]

/-- The fraction of a packed datum. -/
theorem fpFrac_pack (F : Format) (s : Bool) (e f : Nat) (h : f < 2 ^ F.fracBits) : fpFrac F (fpPack F s e f) = f := by
  have : (fpPack F s e f).extractLsb' 0 F.fracBits = BitVec.ofNat F.fracBits f := by
    ext i hi
    simp only [fpPack, BitVec.getElem_extractLsb', BitVec.getLsbD_append]
    simp [hi]
  rw [fpFrac, this, BitVec.toNat_ofNat, Nat.mod_eq_of_lt h]

end Sys2Proof.Machine
end

