-- ==== Sys2Proof/Laws/PerInstr.lean ====
section
/-! SUPPORT. The per-instruction family `SelectedByOp`: the word of an instruction carries its code in the field `op`, and
the opcode map takes that code back to the instruction's operation (R72: "a decoder looks at `op` alone"). -/

namespace Sys2Proof.Laws.SelectedByOp

def Statement (i : Instr) : Prop :=
  opField (encode i) = opcode i ∧ encode (instrOf (opcode i).toNat (portA (encode i)) (portB (encode i)) (portC (encode i))) = encode i

theorem addI32 (a b c : Word64) : Statement (.addI32 a b c) := by
  simp [Statement, encode, opcode, instrOf, opField_commandWord, portA_commandWord, portB_commandWord, portC_commandWord]

theorem addI64 (a b c : Word64) : Statement (.addI64 a b c) := by
  simp [Statement, encode, opcode, instrOf, opField_commandWord, portA_commandWord, portB_commandWord, portC_commandWord]

theorem addF32 (a b c : Word64) : Statement (.addF32 a b c) := by
  simp [Statement, encode, opcode, instrOf, opField_commandWord, portA_commandWord, portB_commandWord, portC_commandWord]

theorem addF64 (a b c : Word64) : Statement (.addF64 a b c) := by
  simp [Statement, encode, opcode, instrOf, opField_commandWord, portA_commandWord, portB_commandWord, portC_commandWord]

theorem mandelF64 (a b c : Word64) : Statement (.mandelF64 a b c) := by
  simp [Statement, encode, opcode, instrOf, opField_commandWord, portA_commandWord, portB_commandWord, portC_commandWord]

theorem pal16 (a b c : Word64) : Statement (.pal16 a b c) := by
  simp [Statement, encode, opcode, instrOf, opField_commandWord, portA_commandWord, portB_commandWord, portC_commandWord]

theorem bdelta (a b c : Word64) : Statement (.bdelta a b c) := by
  simp [Statement, encode, opcode, instrOf, opField_commandWord, portA_commandWord, portB_commandWord, portC_commandWord]

theorem reserved (a b c : Word64) : Statement (.reserved a b c) := by
  simp [Statement, encode, opcode, instrOf, opField_commandWord, portA_commandWord, portB_commandWord, portC_commandWord]

end Sys2Proof.Laws.SelectedByOp
end

