-- ==== Sys2Proof/Laws/Step.lean ====
section
/-! SUPPORT. What a command, a move of the host and a turn can do, said once each. -/

namespace Sys2Proof.Machine

/-- All that `ADD.F32` can do: one `OK` response, and one draw where the result is a NaN. -/
theorem execAddF32_cases (a b c : Word64) (s : State) :
    (∃ res, fadd binary32 (operand32 a) (operand32 b) = some res ∧
      execAddF32 a b c s = .next (s.respond .ok (result32 res))) ∨
    (fadd binary32 (operand32 a) (operand32 b) = none ∧
      execAddF32 a b c s =
        .next (s.countDraw.respond .ok (result32 (drawnNaN32 s.draws (operand32 a) (operand32 b))))) := by
  unfold execAddF32
  cases h : fadd binary32 (operand32 a) (operand32 b) with
  | none => exact .inr ⟨rfl, rfl⟩
  | some res => exact .inl ⟨res, rfl, rfl⟩

/-- All that `ADD.F64` can do. -/
theorem execAddF64_cases (a b c : Word64) (s : State) :
    (∃ res, fadd binary64 (operand64 a) (operand64 b) = some res ∧
      execAddF64 a b c s = .next (s.respond .ok (result64 res))) ∨
    (fadd binary64 (operand64 a) (operand64 b) = none ∧
      execAddF64 a b c s =
        .next (s.countDraw.respond .ok (result64 (drawnNaN64 s.draws (operand64 a) (operand64 b))))) := by
  unfold execAddF64
  cases h : fadd binary64 (operand64 a) (operand64 b) with
  | none => exact .inr ⟨rfl, rfl⟩
  | some res => exact .inl ⟨res, rfl, rfl⟩

/-- All that `BDELTA` can do: take the fault its check names, or filter and answer `OK`. -/
theorem execBdelta_cases (a b c : Word64) (s : State) :
    (∃ st, st ≠ .ok ∧
      byteDeltaCheck s.params.memSize (operandAddr s.params a) (operandAddr s.params b) (operandSigned32 c) = some st ∧
      execBdelta a b c s = .next (s.raiseFault st)) ∨
    (∃ t,
      byteDeltaCheck s.params.memSize (operandAddr s.params a) (operandAddr s.params b) (operandSigned32 c) = none ∧
      byteDeltaFilter (operandAddr s.params a) (operandAddr s.params b) (operandSigned32 c).toNat s = .ok t ∧
      execBdelta a b c s = .next (t.respond .ok resultNone)) := by
  unfold execBdelta
  cases h : byteDeltaCheck s.params.memSize (operandAddr s.params a) (operandAddr s.params b) (operandSigned32 c) with
  | some st => exact .inl ⟨st, fun h' => byteDeltaCheck_ne_ok _ _ _ _ (h' ▸ h), rfl, rfl⟩
  | none =>
    obtain ⟨h1, h2, h3, _⟩ := (byteDeltaCheck_none_iff _ _ _ _).1 h
    obtain ⟨t, ht⟩ := byteDeltaFilter_completes (operandAddr s.params a) (operandAddr s.params b)
      (operandSigned32 c).toNat s (by omega) (by omega) (by omega)
    exact .inr ⟨t, rfl, ht, by simp [ht]⟩

/-- All that abandoning a command can do: nothing, or the destination range of an accepted `BDELTA` becomes free values. -/
theorem State.abandonCommand_cases (s : State) (w : CmdWord) :
    s.abandonCommand w = s ∨
    ∃ a b c, decodeWord w = .bdelta a b c ∧
      byteDeltaCheck s.params.memSize (operandAddr s.params a) (operandAddr s.params b) (operandSigned32 c) = none ∧
      s.abandonCommand w = (s.abandonRange w (operandAddr s.params b) (operandSigned32 c).toNat).countDraw := by
  unfold State.abandonCommand
  split
  · rename_i a b c hd
    split
    · rename_i hc
      exact .inr ⟨a, b, c, hd, hc, rfl⟩
    · exact .inl rfl
  all_goals exact .inl rfl

/-- R242: abandoning a `BDELTA` that passes its check. -/
theorem State.abandonCommand_of_accepted {s : State} {w : CmdWord} {a b c : Word64} (hd : decodeWord w = .bdelta a b c)
    (hc : byteDeltaCheck s.params.memSize (operandAddr s.params a) (operandAddr s.params b) (operandSigned32 c) = none) :
    s.abandonCommand w = (s.abandonRange w (operandAddr s.params b) (operandSigned32 c).toNat).countDraw := by
  simp only [State.abandonCommand, hd, hc]

/-- Abandoning a `BDELTA` that fails its check (log 8). -/
theorem State.abandonCommand_of_failing {s : State} {w : CmdWord} {a b c : Word64} {st : Status}
    (hd : decodeWord w = .bdelta a b c)
    (hc : byteDeltaCheck s.params.memSize (operandAddr s.params a) (operandAddr s.params b) (operandSigned32 c) = some st) :
    s.abandonCommand w = s := by
  simp only [State.abandonCommand, hd, hc]

/-- Which addresses the destination range of an accepted `BDELTA` holds, as numbers. -/
theorem inDestOf_bdelta_iff (p : Params) (a b c : Word64) (x : Nat) (hc : 0 ≤ operandSigned32 c) :
    inDestOf p (.bdelta a b c) x = true ↔
      operandAddr p b ≤ x ∧ x < operandAddr p b + (operandSigned32 c).toNat := by
  simp only [inDestOf, inRange, Bool.and_eq_true, decide_eq_true_eq]
  omega

/-- All that a memory access of the host can do. -/
theorem hostRead_next_iff (s t : State) (a : Nat) :
    hostRead s a = .next t ↔ a < s.params.memSize ∧ t = s := by
  unfold hostRead memRead
  by_cases h : a < s.params.memSize
  · simp only [h, if_true, Host.Outcome.next.injEq, true_and]
    exact eq_comm
  · simp [h]

theorem hostWrite_next_iff (s t : State) (a : Nat) (v : Byte) :
    hostWrite s a v = .next t ↔ a < s.params.memSize ∧ t = s.setByte a v := by
  unfold hostWrite memWrite
  by_cases h : a < s.params.memSize
  · simp only [h, if_true, Host.Outcome.next.injEq, true_and]
    exact eq_comm
  · simp [h]

theorem hostRead_fault_iff (s : State) (a : Nat) (e : Fault) :
    hostRead s a = .fault e ↔ s.params.memSize ≤ a ∧ e = .addressOutsideMemory a := by
  unfold hostRead memRead
  by_cases h : a < s.params.memSize
  · simp [h]
  · simp only [h, if_false, Host.Outcome.fault.injEq, Nat.le_of_not_lt h, true_and]
    exact eq_comm

theorem hostWrite_fault_iff (s : State) (a : Nat) (v : Byte) (e : Fault) :
    hostWrite s a v = .fault e ↔ s.params.memSize ≤ a ∧ e = .addressOutsideMemory a := by
  unfold hostWrite memWrite
  by_cases h : a < s.params.memSize
  · simp [h]
  · simp only [h, if_false, Host.Outcome.fault.injEq, Nat.le_of_not_lt h, true_and]
    exact eq_comm

/-- When the block runs a command. -/
theorem State.turn_run_iff (s : State) (i : Instr) :
    s.turn = .run i ↔ ∃ w, s.inFlight = some w ∧ i = decodeWord w ∧ ∀ m ∈ s.host.head?, m.early = false := by
  unfold State.turn
  cases s.inFlight with
  | none =>
    cases s.host <;> simp
  | some w =>
    rcases s.host with _ | ⟨⟨_ | _, act⟩, rest⟩
    · simp only [List.head?_nil, Option.mem_def, Option.some.injEq, Turn.run.injEq]
      exact ⟨fun h => ⟨w, rfl, h.symm, by simp⟩, fun ⟨u, h1, h2, _⟩ => by rw [h2, h1]⟩
    · simp only [List.head?_cons, Option.mem_def, Option.some.injEq, Turn.run.injEq]
      exact ⟨fun h => ⟨w, rfl, h.symm, by simp⟩, fun ⟨u, h1, h2, _⟩ => by rw [h2, h1]⟩
    · simp

/-- When a move of the host comes while a command is in flight. -/
theorem State.turn_busyMove_iff (s : State) (w : CmdWord) (act : HostAction) :
    s.turn = .busyMove w act ↔ s.inFlight = some w ∧ s.host.head? = some { early := true, action := act } := by
  unfold State.turn
  cases s.inFlight with
  | none =>
    cases s.host <;> simp
  | some w' =>
    rcases s.host with _ | ⟨⟨_ | _, act'⟩, rest⟩ <;> simp

/-- When a move of the host comes while the block is idle. -/
theorem State.turn_idleMove_iff (s : State) (act : HostAction) :
    s.turn = .idleMove act ↔ s.inFlight = none ∧ ∃ m, s.host.head? = some m ∧ m.action = act := by
  unfold State.turn
  cases s.inFlight with
  | none =>
    rcases s.host with _ | ⟨⟨e, act'⟩, rest⟩ <;> simp
  | some w' =>
    rcases s.host with _ | ⟨⟨_ | _, act'⟩, rest⟩ <;> simp

end Sys2Proof.Machine
end

