-- ==== Sys2Proof/Machine/Text.lean ====
section
/-! DEFINITION. The names of the operations and the textual form of a command (R6, R78). The machine reads no text; this
is the notation of `95_test_vectors.md`. -/

namespace Sys2Proof.Machine

/-- The mnemonic of an operation (R6, R72). -/
def mnemonicOf : Instr → String
  | .addI32 _ _ _ => "ADD.I32"
  | .addI64 _ _ _ => "ADD.I64"
  | .addF32 _ _ _ => "ADD.F32"
  | .addF64 _ _ _ => "ADD.F64"
  | .mandelF64 _ _ _ => "MANDEL.F64"
  | .pal16 _ _ _ => "PAL16"
  | .bdelta _ _ _ => "BDELTA"
  | .reserved _ _ _ => "RESERVED"

/-- The document's name of an operation, which R78 accepts for the mnemonic; two of them are R78's inference. The reserved
code has none. -/
def documentNameOf : Instr → Option String
  | .addI32 _ _ _ => some "sample_add_i32"
  | .addI64 _ _ _ => some "sample_add_i64"
  | .addF32 _ _ _ => some "sample_add_f32"
  | .addF64 _ _ _ => some "sample_add_f64"
  | .mandelF64 _ _ _ => some "mandelbrot"
  | .pal16 _ _ _ => some "palette_16color"
  | .bdelta _ _ _ => some "filter_line"
  | .reserved _ _ _ => none

/-- The operands of a command in the order of R73, as bit patterns. -/
def operandPatterns (p : Params) : Instr → List Nat
  | .addI32 a b _ => [(operand32 a).toNat, (operand32 b).toNat]
  | .addI64 a b _ => [(operand64 a).toNat, (operand64 b).toNat]
  | .addF32 a b _ => [(operand32 a).toNat, (operand32 b).toNat]
  | .addF64 a b _ => [(operand64 a).toNat, (operand64 b).toNat]
  | .mandelF64 a b c => [(operand32 a).toNat, (operand64 b).toNat, (operand64 c).toNat]
  | .pal16 a _ _ => [(operand32 a).toNat]
  | .bdelta a b c => [operandAddr p a, operandAddr p b, (operand32 c).toNat]
  | .reserved _ _ _ => []

/-- R78: `MNEMONIC operand, operand, ...`, the operands as `0x` bit patterns. -/
def commandText (p : Params) (i : Instr) : String :=
  mnemonicOf i ++ " " ++ ", ".intercalate ((operandPatterns p i).map fun n => "0x" ++ String.ofList (Nat.toDigits 16 n))

end Sys2Proof.Machine
end

