-- ==== Sys2Proof/Tests/Slice0.lean ====
section
/-! SUPPORT. Tests: the checks of `WellFormed`, one word of every operation written out from R70 and R72, at most two
steps an operation with results from `95_test_vectors.md`, and for every statement with hypotheses a witness that meets
them. -/

namespace Sys2Proof.Tests

open Sys2Proof Sys2Proof.Machine

-- WellFormed: R7's three ranges, one ill-formed term each.

theorem test_params_addrW_zero_refused : Params.wellFormed { addrW := 0, memSize := 1 } = false := by decide
theorem test_params_addrW_65_refused : Params.wellFormed { addrW := 65, memSize := 0 } = false := by decide
theorem test_params_memSize_too_large_refused : Params.wellFormed { addrW := 4, memSize := 17 } = false := by decide
theorem test_params_full_space_accepted : Params.wellFormed { addrW := 4, memSize := 16 } = true := by decide
theorem test_default_params_accepted : Params.wellFormed Config.defaultParams = true := by decide

-- Decode: words of `95_test_vectors.md` Part 3 and section 2.8, op digit first (R70).

theorem test_decode_addI32 : decodeWord 0x0_DEADBEEF80000000_0000000080000000_0000000000000000 =
    .addI32 0xDEADBEEF80000000 0x80000000 0 := by decide
theorem test_decode_addI64 : decodeWord 0x1_FFFFFFFFFFFFFFFF_0000000000000001_0000000000000000 =
    .addI64 0xFFFFFFFFFFFFFFFF 1 0 := by decide
theorem test_decode_addF32 : decodeWord 0x2_000000003F666668_000000003DCCCCCD_0000000000000000 =
    .addF32 0x3F666668 0x3DCCCCCD 0 := by decide
theorem test_decode_addF64 : decodeWord 0x3_3FF0000000000000_4000000000000000_0000000000000005 =
    .addF64 0x3FF0000000000000 0x4000000000000000 5 := by decide
theorem test_decode_mandelF64 : decodeWord 0x4_0000000000000064_4000000000000000_C000000000000000 =
    .mandelF64 100 0x4000000000000000 0xC000000000000000 := by decide
theorem test_decode_pal16 : decodeWord 0x5_0000000000000064_0000000000000000_0000000000000000 = .pal16 100 0 0 := by
  decide
theorem test_decode_bdelta : decodeWord 0x6_0000000000000FFE_0000000000000FFF_00000000FFFFFFFF =
    .bdelta 0xFFE 0xFFF 0xFFFFFFFF := by decide
theorem test_decode_reserved : decodeWord 0x7_0000000000001234_0000000000005678_0000000000009ABC =
    .reserved 0x1234 0x5678 0x9ABC := by decide
theorem test_decode_tooWide : decode (2 ^ 195) = .error .tooWide := by decide
theorem test_encode_bdelta : encode (.bdelta 0x100 0x200 4) =
    0x6_0000000000000100_0000000000000200_0000000000000004 := by decide
theorem test_table_row_bdelta :
    decodeTableWord 200 0x6000000000000000000000000000000000000000000000000 = some (.bdelta 0 0 0) := by decide
theorem test_response_word : responseWord { status := .illegalOp, result := 0 } = 0x3_0000000000000000 := by decide

/-- The response a command ends with. -/
def answer (o : Host.Outcome State Fault Refusal) : Option Response :=
  match o with
  | .next t => t.responses.getLast?
  | .fault _ => none
  | .refused _ => none

/-- The bytes written, after a step. -/
def memAfter (o : Host.Outcome State Fault Refusal) : Option Memory :=
  match o with
  | .next t => some t.mem
  | .fault _ => none
  | .refused _ => none

/-- A reset machine (`ADDR_W` = 32, `MEM_SIZE` = 0x1000) whose memory somebody has written. -/
def withMem (m : Memory) : State := { State.reset with mem := m }

/-- A reset machine that holds a command word. -/
def withWord (w : CmdWord) : State := { State.reset with inFlight := some w }

-- One step (`95_test_vectors.md` sections 2.1 to 2.8, vectors by id).

theorem test_I5_sum_is_zero_extended :
    answer (exec (.addI32 0xFFFFFFFF 0xFFFFFFFF 0) State.reset) = some { status := .ok, result := 0xFFFFFFFE } := by decide
theorem test_I9_upper_bits_ignored :
    answer (exec (.addI32 0xDEADBEEF00000005 0xCAFEF00D00000006 0) State.reset) = some { status := .ok, result := 0xB } := by
  decide
theorem test_L2_wraps :
    answer (exec (.addI64 0x7FFFFFFFFFFFFFFF 1 0) State.reset) = some { status := .ok, result := 0x8000000000000000 } := by
  decide
theorem test_L6_carry_crosses_bit_32 :
    answer (exec (.addI64 0xFFFFFFFF 1 0) State.reset) = some { status := .ok, result := 0x100000000 } := by decide
theorem test_F12_tie_overflows :
    answer (exec (.addF32 0x7F7FFFFF 0x73000000 0) State.reset) = some { status := .ok, result := 0x7F800000 } := by
  decide +kernel
theorem test_F17_tie_to_even :
    answer (exec (.addF32 0x3F800001 0x33800000 0) State.reset) = some { status := .ok, result := 0x3F800002 } := by
  decide +kernel
theorem test_G2_inexact :
    answer (exec (.addF64 0x3FB999999999999A 0x3FC999999999999A 0) State.reset) =
      some { status := .ok, result := 0x3FD3333333333334 } := by decide +kernel
theorem test_G23_gradual_underflow :
    answer (exec (.addF64 0x0010000000000000 0x8000000000000001 0) State.reset) =
      some { status := .ok, result := 0x000FFFFFFFFFFFFF } := by decide +kernel
theorem test_M10_boundary_passes :
    answer (exec (.mandelF64 100 0x3FF0000000000000 0 ) State.reset) = some { status := .ok, result := 3 } := by
  decide +kernel
theorem test_M16_NaN_ends_the_loop :
    answer (exec (.mandelF64 0xFFFFFFFF00000064 0x7FF8000000000000 0) State.reset) = some { status := .ok, result := 1 } := by
  decide +kernel
theorem test_P8_light_grey :
    answer (exec (.pal16 8 0 0) State.reset) = some { status := .ok, result := 0xC0C0C0 } := by decide
theorem test_P20_index_not_masked :
    answer (exec (.pal16 0xFFFFFFF0 0 0) State.reset) = some { status := .ok, result := 0xFFFFFFFF } := by decide
theorem test_B1_deltas :
    memAfter (exec (.bdelta 0x100 0x200 4) (withMem [(0x100, 10), (0x101, 12), (0x102, 15), (0x103, 11)])) =
      some [(0x100, 10), (0x101, 12), (0x102, 15), (0x103, 11), (0x200, 10), (0x201, 2), (0x202, 3), (0x203, 252)] := by
  decide
theorem test_K16_bounds_before_overlap :
    answer (exec (.bdelta 0xFFE 0xFFF 4) State.reset) = some { status := .outOfBounds, result := 0 } := by decide
theorem test_X2_illegalOp :
    answer (exec (.reserved 0xFFFFFFFFFFFFFFFF 0xFFFFFFFFFFFFFFFF 0xFFFFFFFFFFFFFFFF) State.reset) =
      some { status := .illegalOp, result := 0 } := by decide

theorem test_operands_in_order :
    mnemonicOf (.bdelta 0xABCDEF0000000100 0x200 4) = "BDELTA" ∧
    operandPatterns Config.defaultParams (.bdelta 0xABCDEF0000000100 0x200 4) = [0x100, 0x200, 4] := by decide

-- `step` itself: a word in flight, an issued word, a reset, a race.

theorem test_step_runs_the_word :
    answer (step (State.reset.withFetchWord 200 0x0000000007FFFFFF000000000000000100000000000000000)) =
      some { status := .ok, result := 0x80000000 } := by decide
theorem test_step_accepts :
    step { State.reset with host := [{ early := false, action := .issue 5 }] } = .next (withWord 5) := by rfl

-- Witnesses: concrete states and operands that meet a statement's hypotheses, all together.

/-- `DecodingAnEncodedCommandGivesItBack`. -/
theorem witness_wellFormed : Instr.wellFormed (.reserved 1 2 3) = true := by decide

/-- `EveryCommandWordDecodes`: the least number that is no word. -/
theorem witness_tooWide : 2 ^ 195 ≤ 2 ^ 195 := Nat.le_refl _

/-- `StepRunsTheCommandInFlight`: nothing to come, and a move that waits. -/
theorem witness_inFlight :
    (withWord 7).inFlight = some 7 ∧ (∀ m ∈ (withWord 7).host.head?, m.early = false) ∧
    ∀ m ∈ ({ withWord 7 with host := [{ early := false, action := .reset }] } : State).host.head?, m.early = false := by
  decide

/-- `IssuedCommandIsAcceptedAndRun` and `IdleBlockWaitsAndResetsToIdle`. -/
theorem witness_idle :
    State.reset.inFlight = none ∧ State.reset.host = [] ∧
    ({ State.reset with host := [{ early := false, action := .issue 9 }] } : State).host =
      { early := false, action := .issue 9 } :: [] ∧
    (∀ m ∈ ([] : List HostMove).head?, m.early = false) ∧
    ({ State.reset with host := [{ early := true, action := .reset }] } : State).host =
      { early := true, action := .reset } :: [] := by
  decide

/-- `PlacedCommandWordRunsNext`. -/
theorem witness_placed : decodeTableWord 200 (2 ^ 195 - 1) =
    some (.reserved 0xFFFFFFFFFFFFFFFF 0xFFFFFFFFFFFFFFFF 0xFFFFFFFFFFFFFFFF) := by decide

/-- `AddF32AnswersTheRoundedSum`, `AddF64AnswersTheRoundedSum`: a sum and a NaN each. -/
theorem witness_fadd_answers :
    fadd binary32 0x3F800000 0x40000000 = some 0x40400000 ∧ fadd binary32 0x7F800000 0xFF800000 = none ∧
    fadd binary64 0x3FF0000000000000 0x4000000000000000 = some 0x4008000000000000 ∧
    fadd binary64 0x7FF8000000000000 0x3FF0000000000000 = none := by
  decide +kernel

/-- `RoundingIsTheSpecsRounding`. -/
theorem witness_rounding : (binary64 = binary32 ∨ binary64 = binary64) ∧ (1 : Nat) ≠ 0 := by decide

/-- The clauses of `FaddIsTheExactSumRounded`, `FsubAddsTheNegatedOperand`, `FmulIsTheExactProductRounded` and
`FleOrdersTheExtendedReals`: a NaN, an infinity, a zero, and the largest finite datum. -/
theorem witness_classes :
    fpIsNaN binary32 0x7F800001 = true ∧ fpIsInf binary32 0x7F800000 = true ∧ fpIsNaN binary32 0x7F800000 = false ∧
    fpIsZero binary32 0x7F800000 = false ∧ fpIsZero binary32 0x80000000 = true ∧ fpIsFinite binary32 0x80000000 = true ∧
    fpIsFinite binary32 0x7F7FFFFF = true ∧ fpIsNaN binary32 0x7F7FFFFF = false ∧ fpIsZero binary32 0x7F7FFFFF = false := by
  decide

/-- The value clauses of the same statements: a non-zero sum and product, and a zero sum and product. -/
theorem witness_values :
    fpValue binary32 0x3F800000 + fpValue binary32 0x3F800000 ≠ 0 ∧
    fpValue binary32 0x3F800000 * fpValue binary32 0x3F800000 ≠ 0 ∧
    fpValue binary32 0x3F800000 + fpValue binary32 0xBF800000 = 0 ∧
    fpValue binary32 0x00000000 * fpValue binary32 0xBF800000 = 0 := by
  decide +kernel

/-- `FiniteSumIsNearestTiesToEven`, the tie 1 + 2^-24 (vector F15): the sum 1 and the datum above it are equally near. -/
theorem witness_tie :
    fpIsFinite binary32 0x3F800000 = true ∧ fpIsFinite binary32 0x33800000 = true ∧
    fadd binary32 0x3F800000 0x33800000 = some 0x3F800000 ∧ fpIsFinite binary32 0x3F800001 = true ∧
    |fpValue binary32 0x3F800000 - (fpValue binary32 0x3F800000 + fpValue binary32 0x33800000)| =
      |fpValue binary32 0x3F800001 - (fpValue binary32 0x3F800000 + fpValue binary32 0x33800000)| ∧
    fpValue binary32 0x3F800001 ≠ fpValue binary32 0x3F800000 := by
  decide +kernel

/-- `SumOverflowsExactlyAtTheThreshold`: vectors F12 (at the threshold) and F13 (just under it). -/
theorem witness_threshold :
    fpIsFinite binary32 0x7F7FFFFF = true ∧ fpIsFinite binary32 0x73000000 = true ∧
    fpIsFinite binary32 0x72FFFFFF = true ∧
    (2 - (2 : ℚ) ^ (-((binary32.fracBits : Int) + 1))) * (2 : ℚ) ^ binary32.bias ≤
      |fpValue binary32 0x7F7FFFFF + fpValue binary32 0x73000000| ∧
    |fpValue binary32 0x7F7FFFFF + fpValue binary32 0x72FFFFFF| <
      (2 - (2 : ℚ) ^ (-((binary32.fracBits : Int) + 1))) * (2 : ℚ) ^ binary32.bias := by
  decide +kernel

/-- `SubnormalSumsAreExact`: a least normal less a least subnormal (vector F30). -/
theorem witness_subnormal :
    fpValue binary32 0x00800000 + fpValue binary32 0x80000001 ≠ 0 ∧
    |fpValue binary32 0x00800000 + fpValue binary32 0x80000001| < (2 : ℚ) ^ binary32.emin := by
  decide +kernel

/-- `MandelCountIsTheLiteralLoops`: a supply of NaN patterns. -/
theorem witness_nan_supply : ∀ k : Nat, fpIsNaN binary64 ((fun _ => 0x7FF0000000000001) k) = true :=
  fun _ => (by decide : fpIsNaN binary64 0x7FF0000000000001 = true)

/-- `MandelCountIsTheFirstFailedTest`: a count below the bound, and a test before it. -/
theorem witness_mandel_count :
    escapeCount 100 0x4000000000000000 0x4000000000000000 = 1 ∧ (1 : Int) < 100 ∧ 0 < 1 := by decide +kernel

/-- `MandelNaNOrInfiniteSeedCountsOne`, `MandelBoundedOrbitsCountTheBound`. -/
theorem witness_mandel_seeds :
    (1 : Int) ≤ 1 ∧ fpIsFinite binary64 0x7FF8000000000000 = false ∧ fpIsFinite binary64 0xFFF0000000000000 = false ∧
    fpIsZero binary64 0x8000000000000000 = true := by decide

/-- `Pal16AnswersColourOrSentinel`: the ends of the range, and the first indices outside it. -/
theorem witness_palette_indices :
    ((0xFFFFFFFF00000000 : Word64).extractLsb' 0 32).toInt = 0 ∧ ((15 : Word64).extractLsb' 0 32).toInt = 15 ∧
    ((0xFFFFFFFF : Word64).extractLsb' 0 32).toInt < 0 ∧ 15 < ((16 : Word64).extractLsb' 0 32).toInt := by decide

/-- The same statement's sixteen clauses for the indices in range. -/
theorem witness_palette_range :
    ∀ k : Fin 16, ((BitVec.ofNat 64 k.val).extractLsb' 0 32).toInt = (k.val : Int) := by decide

/-- `ByteDeltaWritesTheDeltas`, `ByteDeltaChecksBeforeItRuns` (last clause): touching ranges that end at `MEM_SIZE`. -/
theorem witness_delta_accepted :
    operandAddr State.reset.params 0xFF8 = 0xFF8 ∧ operandAddr State.reset.params 0xABCDEF0000000FFC = 0xFFC ∧
    ((0xFFFFFFFF00000004 : Word64).extractLsb' 0 32).toInt = 4 ∧ 0xFF8 + 4 ≤ State.reset.params.memSize ∧
    0xFFC + 4 ≤ State.reset.params.memSize ∧ 0xFF8 + 4 ≤ 0xFFC := by decide

/-- `ByteDeltaChecksBeforeItRuns`, the three faults at their boundaries (vectors K2, K8, K19). -/
theorem witness_delta_faults :
    ((0 : Word64).extractLsb' 0 32).toInt ≤ 0 ∧
    ((State.reset.params.memSize : Int) < operandAddr State.reset.params 0xFFD + ((4 : Word64).extractLsb' 0 32).toInt) ∧
    ¬ ((State.reset.params.memSize : Int) < 0x100 + 4 ∨ (State.reset.params.memSize : Int) < 0x103 + 4) ∧
    (operandAddr State.reset.params 0x100 : Int) < operandAddr State.reset.params 0x103 + 4 ∧
    (operandAddr State.reset.params 0x103 : Int) < operandAddr State.reset.params 0x100 + 4 := by decide

/-- `RunningSumUndoesByteDelta`, `RepeatedByteDeltaChangesNothing`, `ByteDeltaDependsOnSourceBytesOnly`: a command that is
accepted twice, answers `OK`, on a state and itself. -/
theorem witness_delta_runs :
    ∃ t u, exec (.bdelta 0x100 0x102 2) (withMem [(0x100, 25), (0x101, 25)]) = .next t ∧
      exec (.bdelta 0x100 0x102 2) t = .next u ∧
      t.responses = (withMem []).responses ++ [{ status := .ok, result := 0 }] ∧
      (1 : Int) < ((2 : Word64).extractLsb' 0 32).toInt ∧
      inSourceOf t.params (.bdelta 0x100 0x102 2) 0x101 = true ∧ inDestOf t.params (.bdelta 0x100 0x102 2) 0x103 = true :=
  ⟨_, _, rfl, rfl, by decide⟩

/-- `IgnoredPortBitsHaveNoEffect`. -/
theorem witness_ignored_bits :
    (0xDEADBEEF00000001 : Word64).extractLsb' 0 32 = (1 : Word64).extractLsb' 0 32 ∧
    (0xABCDEF0000000100 : Word64).toNat % 2 ^ State.reset.params.addrW =
      (0x100 : Word64).toNat % 2 ^ State.reset.params.addrW := by decide

/-- `FaultingCommandHasNoEffect`: the reserved code, and a `BDELTA` of length 0. -/
theorem witness_fault :
    (∃ t, exec (.reserved 1 2 3) State.reset = .next t ∧
      t.responses = State.reset.responses ++ [{ status := .illegalOp, result := 0 }] ∧ Status.illegalOp ≠ .ok) ∧
    ∃ t, exec (.bdelta 1 2 0) State.reset = .next t ∧
      t.responses = State.reset.responses ++ [{ status := .invalidArgument, result := 0 }] ∧
      Status.invalidArgument ≠ .ok :=
  ⟨⟨_, rfl, by decide⟩, ⟨_, rfl, by decide⟩⟩

/-- `OnlyByteDeltaWritesMemory`, `ResponseDependsOnTheCommandOnly`: two states with the same parameters. -/
theorem witness_two_states :
    (∀ A B C, Instr.pal16 9 0 0 ≠ .bdelta A B C) ∧ State.reset.params = (withMem [(3, 1)]).params ∧
    (∃ t, exec (.pal16 9 0 0) State.reset = .next t ∧
      t.responses = State.reset.responses ++ [{ status := .ok, result := 0xFF }]) ∧
    ∃ t, exec (.pal16 9 0 0) (withMem [(3, 1)]) = .next t ∧
      t.responses = (withMem [(3, 1)]).responses ++ [{ status := .ok, result := 0xFF }] :=
  ⟨by simp, rfl, ⟨_, rfl, by decide⟩, ⟨_, rfl, by decide⟩⟩

/-- `EveryStepKeepsTheInvariant`, `NoStepChangesTheParameters`, `ResponsesComeFromCommandsOnly`: a state with written
memory that meets the invariant, and its step. -/
theorem witness_invariant :
    State.Inv { withMem [(0x100, 5), (0xFFF, 6)] with inFlight := some 0x7_0000000000000000_0000000000000000_0000000000000000 } ∧
    ∃ t, step { withMem [(0x100, 5), (0xFFF, 6)] with inFlight := some 0x7_0000000000000000_0000000000000000_0000000000000000 } =
      .next t :=
  ⟨by decide, _, rfl⟩

/-- `MemoryChangesOnlyByHostOrByteDelta`: a `BDELTA` of one byte, with a waiting write behind it, changes a byte of its
destination range; a write of the host on an idle block changes the last byte of memory. -/
theorem witness_memory_changes :
    (∃ t, step { withMem [(0x100, 42), (0x200, 0)] with
          inFlight := some 0x6_0000000000000100_0000000000000200_0000000000000001,
          host := [{ early := false, action := .write 0x200 7 }] } = .next t ∧
      t.readByte 0x200 ≠ (withMem [(0x100, 42), (0x200, 0)]).readByte 0x200) ∧
    ∃ t, step { withMem [(0xFFF, 0)] with host := [{ early := false, action := .write 0xFFF 7 }] } = .next t ∧
      t.readByte 0xFFF ≠ (withMem [(0xFFF, 0)]).readByte 0xFFF :=
  ⟨⟨_, rfl, by decide⟩, _, rfl, by decide⟩

/-- `ResetDuringACommandAbandonsIt`: a `BDELTA` that just passes its check, the first and last byte of its range and the
byte after; one whose ranges just overlap, which fails it. -/
theorem witness_abandoned_commands :
    decodeWord 0x6_0000000000000100_0000000000000104_0000000000000004 = .bdelta 0x100 0x104 4 ∧
    byteDeltaCheck State.reset.params.memSize (operandAddr State.reset.params 0x100) (operandAddr State.reset.params 0x104)
      (operandSigned32 4) = none ∧
    inDestOf State.reset.params (.bdelta 0x100 0x104 4) 0x104 = true ∧
    inDestOf State.reset.params (.bdelta 0x100 0x104 4) 0x107 = true ∧
    inDestOf State.reset.params (.bdelta 0x100 0x104 4) 0x108 = false ∧
    decodeWord 0x6_0000000000000100_0000000000000103_0000000000000004 = .bdelta 0x100 0x103 4 ∧
    byteDeltaCheck State.reset.params.memSize (operandAddr State.reset.params 0x100) (operandAddr State.reset.params 0x103)
      (operandSigned32 4) = some .invalidArgument := by
  decide

/-- `AllowedHostAccessIsMade`: the last address inside memory and the first outside, on an idle block (whatever the mark),
during a `BDELTA` just after its ranges, and during a command that is no `BDELTA`. -/
theorem witness_allowed_accesses :
    (∀ (early : Bool) (act : HostAction),
      ({ State.reset with host := [{ early := early, action := act }] } : State).host = { early := early, action := act } :: []) ∧
    State.reset.inFlight = none ∧ 0xFFF < State.reset.params.memSize ∧ State.reset.params.memSize ≤ 0x1000 ∧
    (∃ w, (withWord 0x6_0000000000000100_0000000000000FFB_0000000000000004).inFlight = some w ∧
      inSourceOf State.reset.params (decodeWord w) 0x104 = false ∧ inDestOf State.reset.params (decodeWord w) 0x104 = false ∧
      inSourceOf State.reset.params (decodeWord w) 0xFFF = false ∧ inDestOf State.reset.params (decodeWord w) 0xFFF = false ∧
      inSourceOf State.reset.params (decodeWord w) 0x1000 = false ∧
      inDestOf State.reset.params (decodeWord w) 0x1000 = false) ∧
    ∃ w, (withWord 0x5_0000000000000009_0000000000000000_0000000000000000).inFlight = some w ∧
      inSourceOf State.reset.params (decodeWord w) 0xFFF = false ∧
      inDestOf State.reset.params (decodeWord w) 0xFFF = false :=
  ⟨fun _ _ => rfl, rfl, by decide, by decide, ⟨_, rfl, by decide⟩, _, rfl, by decide⟩

/-- `ResetDuringACommandAbandonsIt`, `RacingAccessIsRefused`, `SecondCommandIsNotAccepted`: a `BDELTA` in flight, and each
of the early moves; the first and the last byte of a range. -/
theorem witness_early_moves :
    (withWord 0x6_0000000000000100_0000000000000200_0000000000000004).inFlight =
      some 0x6_0000000000000100_0000000000000200_0000000000000004 ∧
    decodeWord 0x6_0000000000000100_0000000000000200_0000000000000004 = .bdelta 0x100 0x200 4 ∧
    (∀ act : HostAction, ({ State.reset with host := [{ early := true, action := act }] } : State).host =
      { early := true, action := act } :: []) ∧
    inSourceOf State.reset.params (.bdelta 0x100 0x200 4) 0x100 = true ∧
    inSourceOf State.reset.params (.bdelta 0x100 0x200 4) 0x104 = false ∧
    inDestOf State.reset.params (.bdelta 0x100 0x200 4) 0x203 = true ∧
    inDestOf State.reset.params (.bdelta 0x100 0x200 4) 0x204 = false ∧ 0x204 < State.reset.params.memSize :=
  ⟨rfl, by decide, fun _ => rfl, by decide⟩

/-- `MemoryPrimitivesReadAndWriteOneByte`: the last address inside memory and the first outside. -/
theorem witness_memory_bounds : 0xFFF < State.reset.params.memSize ∧ State.reset.params.memSize ≤ 0x1000 := by decide

end Sys2Proof.Tests
end

section
/-! The memory primitives of R41. A write sets one byte and leaves the rest of the state, which the lemmas on
`State.setByte` say; `memRead_ok_iff` and its companions say when a primitive answers and when it refuses. -/

namespace Sys2Proof.Machine

/-- A write touches no field but the memory: its frame on the record. -/
theorem State.setByte_eq_with_mem (s : State) (a : Nat) (v : Byte) :
    s.setByte a v = { s with mem := (s.setByte a v).mem } := rfl

@[simp] theorem State.readByte_setByte_same (s : State) (a : Nat) (v : Byte) : (s.setByte a v).readByte a = v := by
  rw [State.readByte_setByte, if_pos rfl]

theorem State.readByte_setByte_of_ne (s : State) (v : Byte) {a b : Nat} (h : b ≠ a) :
    (s.setByte a v).readByte b = s.readByte b := by
  rw [State.readByte_setByte, if_neg h]

/-- Settles O50, by the two sides of `MEM_SIZE`: inside it the write answers `State.setByte`, outside it neither primitive
answers. -/
theorem memoryPrimitivesReadAndWriteOneByte : Obligations.MemoryPrimitivesReadAndWriteOneByte := by
  intro s a v
  constructor
  · intro inside
    have hread : memRead s a = .ok (s.readByte a) := (memRead_ok_iff s a _).mpr ⟨inside, rfl⟩
    have hwrite : memWrite s a v = .ok (s.setByte a v) := (memWrite_ok_iff s _ a v).mpr ⟨inside, rfl⟩
    exact ⟨hread, s.setByte a v, hwrite, s.setByte_eq_with_mem a v, s.readByte_setByte_same a v,
      fun _ other => s.readByte_setByte_of_ne v other⟩
  · intro atOrAbove
    have outside : ¬ a < s.params.memSize := Nat.not_lt.mpr atOrAbove
    exact ⟨(memRead_error_iff s a _).mpr ⟨outside, rfl⟩, (memWrite_error_iff s a v _).mpr ⟨outside, rfl⟩⟩

end Sys2Proof.Machine
end

section
/-! Encoding (`30_encoding.md`): what decoding makes of a word put together from its fields, which words are reserved, the
layout of the response word, and the one response that every command ends with. -/

namespace Sys2Proof

/-- Decoding a word that was put together from its fields: `op` alone selects the operation, and the ports arrive whole
(R70, R72). -/
theorem decodeWord_commandWord (op : BitVec 3) (a b c : Word64) :
    decodeWord (commandWord op a b c) = instrOf op.toNat a b c := by
  rw [decodeWord, opField_commandWord, portA_commandWord, portB_commandWord, portC_commandWord]

/-- The opcode map has one operation for each of the eight codes. -/
theorem opcode_instrOf (op : BitVec 3) (a b c : Word64) : opcode (instrOf op.toNat a b c) = op := by
  have below : op.toNat < 8 := op.isLt
  apply BitVec.eq_of_toNat_eq
  generalize op.toNat = n at below ⊢
  interval_cases n <;> rfl

/-- A decoded command has the code that stands in its word's field `op`. -/
theorem opcode_decodeWord (w : CmdWord) : opcode (decodeWord w) = opField w :=
  opcode_instrOf (opField w) (portA w) (portB w) (portC w)

/-- The reserved command is the only one with code 7 (R75). -/
theorem opcode_eq_seven_iff (i : Instr) : opcode i = 7#3 ↔ ∃ a b c, i = .reserved a b c := by
  cases i <;> simp [opcode]

/-- Settles O3: each clause is `decodeWord_commandWord` at one code of the opcode map. -/
theorem opcodeMapSelectsTheOperation : Obligations.OpcodeMapSelectsTheOperation := fun a b c =>
  ⟨decodeWord_commandWord 0 a b c, decodeWord_commandWord 1 a b c, decodeWord_commandWord 2 a b c,
    decodeWord_commandWord 3 a b c, decodeWord_commandWord 4 a b c, decodeWord_commandWord 5 a b c,
    decodeWord_commandWord 6 a b c, decodeWord_commandWord 7 a b c⟩

end Sys2Proof

namespace Sys2Proof.Machine

/-- The status code stands in bits 65:64 of the response word (R71). -/
theorem extractLsb'_responseWord_status (r : Response) :
    (responseWord r).extractLsb' 64 2 = statusCode r.status :=
  BitVec.extractLsb'_append_eq_left

/-- `R` stands in bits 63:0 of the response word (R71). -/
theorem extractLsb'_responseWord_result (r : Response) : (responseWord r).extractLsb' 0 64 = r.result :=
  BitVec.extractLsb'_append_eq_right

/-- The meaning of the reserved command: it takes the exception `IllegalOp` (R75). -/
theorem exec_reserved (a b c : Word64) (s : State) :
    exec (.reserved a b c) s = .next (s.raiseFault .illegalOp) := rfl

/-- All that a command can do: it gives one response, and before that it can have changed only memory and the count of
draws. -/
theorem exec_eq_next_respond (i : Instr) (s : State) :
    ∃ m d st r, exec i s = .next (({ s with mem := m, draws := d } : State).respond st r) := by
  cases i with
  | addI32 a b c => exact ⟨s.mem, s.draws, .ok, _, rfl⟩
  | addI64 a b c => exact ⟨s.mem, s.draws, .ok, _, rfl⟩
  | mandelF64 a b c => exact ⟨s.mem, s.draws, .ok, _, rfl⟩
  | pal16 a b c => exact ⟨s.mem, s.draws, .ok, _, rfl⟩
  | reserved a b c => exact ⟨s.mem, s.draws, .illegalOp, 0, exec_reserved a b c s⟩
  | addF32 a b c =>
    rcases execAddF32_cases a b c s with ⟨_, _, number⟩ | ⟨_, nan⟩
    · exact ⟨s.mem, s.draws, .ok, _, number⟩
    · exact ⟨s.mem, s.draws + 1, .ok, _, nan⟩
  | addF64 a b c =>
    rcases execAddF64_cases a b c s with ⟨_, _, number⟩ | ⟨_, nan⟩
    · exact ⟨s.mem, s.draws, .ok, _, number⟩
    · exact ⟨s.mem, s.draws + 1, .ok, _, nan⟩
  | bdelta a b c =>
    rcases execBdelta_cases a b c s with ⟨st, _, _, fault⟩ | ⟨t, accepted, filtered, ok⟩
    · exact ⟨s.mem, s.draws, st, 0, fault⟩
    · obtain ⟨positive, -⟩ := (byteDeltaCheck_none_iff _ _ _ _).mp accepted
      obtain ⟨hparams, hinFlight, hhost, hresponses, hseed, -⟩ :=
        byteDeltaFilter_frame _ _ _ s t (by omega) filtered
      have frame : t = { s with mem := t.mem, draws := t.draws } := by
        rw [← hparams, ← hinFlight, ← hhost, ← hresponses, ← hseed]
      exact ⟨t.mem, t.draws, .ok, resultNone, frame ▸ ok⟩

/-- Settles O6: the two fields of the response word, the four codes, and the response of `exec_eq_next_respond`. -/
theorem everyCommandGetsOneResponseWord : Obligations.EveryCommandGetsOneResponseWord := by
  refine ⟨fun r => ⟨extractLsb'_responseWord_status r, extractLsb'_responseWord_result r⟩, ⟨rfl, rfl, rfl, rfl⟩, ?_⟩
  intro i s
  obtain ⟨m, d, st, r, answered⟩ := exec_eq_next_respond i s
  exact ⟨_, { status := st, result := r }, answered, State.respond_responses _ st r⟩

/-- Settles O34: the reserved command is the one with code 7, and its response is `exec_reserved`. -/
theorem reservedCodeRaisesIllegalOp : Obligations.ReservedCodeRaisesIllegalOp := by
  refine ⟨fun w => ?_, rfl, fun s a b c => exec_reserved a b c s⟩
  rw [← opcode_eq_seven_iff, opcode_decodeWord, opField]

end Sys2Proof.Machine
end

section
/-! The integer adders (`40_integer_add.md`): the wrapped sum read as a signed value, and the response of each adder, in
which the two ports can be exchanged. -/

namespace Sys2Proof.Machine

/-- The signed residue in the form the spec writes it: moved up by half the modulus, reduced, and moved back. -/
theorem bmod_two_pow_succ (x : Int) (w : Nat) :
    x.bmod (2 ^ (w + 1)) = (x + 2 ^ w) % 2 ^ (w + 1) - 2 ^ w := by
  have half : (0 : Int) < 2 ^ w := by positivity
  have modulus : ((2 ^ (w + 1) : Nat) : Int) = 2 * 2 ^ w := by push_cast; ring
  have reduced := Int.mul_ediv_add_emod (x + 2 ^ w) (2 * 2 ^ w)
  have nonneg := Int.emod_nonneg (x + 2 ^ w) (show (2 * 2 ^ w : Int) ≠ 0 by omega)
  have below := Int.emod_lt_of_pos (x + 2 ^ w) (show (0 : Int) < 2 * 2 ^ w by omega)
  rw [Int.bmod_eq_iff (by positivity), modulus, pow_succ' (2 : Int) w]
  refine ⟨by omega, by omega, -((x + 2 ^ w) / (2 * 2 ^ w)), ?_⟩
  linarith

/-- Adding as unsigned numbers and cutting to the width wraps the signed sum at half the modulus (R100, R101). -/
theorem toInt_ofNat_toNat_add_toNat {w : Nat} (a b : BitVec (w + 1)) :
    (BitVec.ofNat (w + 1) (a.toNat + b.toNat)).toInt = (a.toInt + b.toInt + 2 ^ w) % 2 ^ (w + 1) - 2 ^ w := by
  rw [← BitVec.add_def, BitVec.toInt_add, bmod_two_pow_succ]

/-- The meaning of `ADD.I32`: an `OK` response with the zero-extended sum of the low halves (R100). -/
theorem exec_addI32 (a b c : Word64) (s : State) :
    exec (.addI32 a b c) s = .next (s.respond .ok (result32 (operand32 a + operand32 b))) := rfl

/-- The meaning of `ADD.I64`: an `OK` response with the sum of the ports (R101). -/
theorem exec_addI64 (a b c : Word64) (s : State) :
    exec (.addI64 a b c) s = .next (s.respond .ok (result64 (operand64 a + operand64 b))) := rfl

theorem exec_addI32_comm (a b c : Word64) (s : State) : exec (.addI32 a b c) s = exec (.addI32 b a c) s := by
  rw [exec_addI32, exec_addI32, BitVec.add_comm]

theorem exec_addI64_comm (a b c : Word64) (s : State) : exec (.addI64 a b c) s = exec (.addI64 b a c) s := by
  rw [exec_addI64, exec_addI64, BitVec.add_comm]

/-- Settles O11: the opcode map at code 0, the response of `exec_addI32`, and the signed reading at 32 bits. -/
theorem addI32AnswersTheWrappedSum : Obligations.AddI32AnswersTheWrappedSum := fun s a b c =>
  ⟨decodeWord_commandWord 0 a b c, exec_addI32 a b c s, toInt_ofNat_toNat_add_toNat (operand32 a) (operand32 b),
    exec_addI32_comm a b c s⟩

/-- Settles O12: the opcode map at code 1, the response of `exec_addI64`, and the signed reading at 64 bits. -/
theorem addI64AnswersTheWrappedSum : Obligations.AddI64AnswersTheWrappedSum := fun s a b c =>
  ⟨decodeWord_commandWord 1 a b c, exec_addI64 a b c s, toInt_ofNat_toNat_add_toNat (operand64 a) (operand64 b),
    exec_addI64_comm a b c s⟩

end Sys2Proof.Machine
end

section
/-! The ordered comparison (`41_fp_add.md`, R131). `fpValue_eq_units` ties the whole numbers that `fle` compares to the
exact values of R122; the lemmas on `fle` say what it answers on each pair of classes. -/

namespace Sys2Proof.Machine

/-- `val_F(v)` is the whole number of units that the machine holds, times the unit 2^(emin-(p-1)) (R122). -/
theorem fpValue_eq_units (F : Format) (v : BitVec F.bits) :
    fpValue F v = (fpUnits F v : ℚ) * (2 : ℚ) ^ (F.emin - (F.fracBits : Int)) := by
  have signed : (fpUnits F v : ℚ) = (if fpSign F v then -1 else 1) * (fpMag F v : ℚ) := by
    rw [fpUnits]; split <;> simp
  rw [signed, fpValue, fpMag]
  by_cases subnormal : fpExp F v = 0
  · simp only [subnormal, if_true]
  · have scale : (2 : ℚ) ^ ((fpExp F v : Int) - F.bias - F.fracBits) =
        2 ^ (fpExp F v - 1) * 2 ^ (F.emin - (F.fracBits : Int)) := by
      rw [← zpow_natCast, ← zpow_add₀ two_ne_zero, Nat.cast_pred (Nat.pos_of_ne_zero subnormal), Format.emin]
      congr 1
      ring
    simp only [subnormal, if_false, scale]
    push_cast
    ring

/-- Comparing values is comparing units, since the unit is positive. -/
theorem fpValue_le_iff_units_le (F : Format) (a b : BitVec F.bits) :
    fpValue F a ≤ fpValue F b ↔ fpUnits F a ≤ fpUnits F b := by
  have unit_pos : (0 : ℚ) < 2 ^ (F.emin - (F.fracBits : Int)) := by positivity
  rw [fpValue_eq_units, fpValue_eq_units, mul_le_mul_iff_of_pos_right unit_pos, Int.cast_le]

/-- The exponent field alone decides whether a datum is finite (R121). -/
theorem fpIsFinite_iff (F : Format) (v : BitVec F.bits) : fpIsFinite F v = true ↔ fpExp F v ≠ F.expOnes :=
  bne_iff_ne

/-- The exponent and the fraction of an infinity (R121). -/
theorem fpIsInf_iff (F : Format) (v : BitVec F.bits) :
    fpIsInf F v = true ↔ fpExp F v = F.expOnes ∧ fpFrac F v = 0 := by
  rw [fpIsInf, Bool.and_eq_true, beq_iff_eq, beq_iff_eq]

/-- The classes of R121 exclude each other: a finite datum is no NaN. -/
theorem fpIsNaN_of_finite {F : Format} {v : BitVec F.bits} (finite : fpIsFinite F v = true) : fpIsNaN F v = false := by
  simp [fpIsNaN, (fpIsFinite_iff F v).mp finite]

/-- A finite datum is no infinity. -/
theorem fpIsInf_of_finite {F : Format} {v : BitVec F.bits} (finite : fpIsFinite F v = true) : fpIsInf F v = false := by
  simp [fpIsInf, (fpIsFinite_iff F v).mp finite]

/-- An infinity is no NaN. -/
theorem fpIsNaN_of_inf {F : Format} {v : BitVec F.bits} (inf : fpIsInf F v = true) : fpIsNaN F v = false := by
  obtain ⟨-, no_fraction⟩ := (fpIsInf_iff F v).mp inf
  simp [fpIsNaN, no_fraction]

/-- A NaN is unordered with everything. -/
theorem fle_of_nan {F : Format} {a b : BitVec F.bits} (nan : fpIsNaN F a = true ∨ fpIsNaN F b = true) :
    fle F a b = false := by
  rcases nan with h | h <;> simp [fle, h]

/-- On finite data the machine compares units. -/
theorem fle_of_finite {F : Format} {a b : BitVec F.bits} (ha : fpIsFinite F a = true) (hb : fpIsFinite F b = true) :
    fle F a b = decide (fpUnits F a ≤ fpUnits F b) := by
  simp [fle, fpIsNaN_of_finite ha, fpIsNaN_of_finite hb, fpIsInf_of_finite ha, fpIsInf_of_finite hb]

/-- An infinity is below a finite datum exactly when it is negative. -/
theorem fle_of_inf_of_finite {F : Format} {a b : BitVec F.bits} (ha : fpIsInf F a = true)
    (hb : fpIsFinite F b = true) : fle F a b = fpSign F a := by
  simp [fle, ha, fpIsNaN_of_inf ha, fpIsNaN_of_finite hb, fpIsInf_of_finite hb]

/-- A finite datum is below an infinity exactly when that is positive. -/
theorem fle_of_finite_of_inf {F : Format} {a b : BitVec F.bits} (ha : fpIsFinite F a = true)
    (hb : fpIsInf F b = true) : fle F a b = !fpSign F b := by
  simp [fle, hb, fpIsNaN_of_finite ha, fpIsNaN_of_inf hb, fpIsInf_of_finite ha]

/-- Of two infinities only the positive one on the left and the negative one on the right are out of order. -/
theorem fle_of_inf_of_inf {F : Format} {a b : BitVec F.bits} (ha : fpIsInf F a = true) (hb : fpIsInf F b = true) :
    fle F a b = (fpSign F a || !fpSign F b) := by
  simp [fle, ha, hb, fpIsNaN_of_inf ha, fpIsNaN_of_inf hb]

/-- Settles O22: one lemma on `fle` for each pair of classes; on finite data the units stand for the values. -/
theorem fleOrdersTheExtendedReals : Obligations.FleOrdersTheExtendedReals := by
  intro F _ a b
  refine ⟨fle_of_nan, fun ha hb => ?_, fle_of_inf_of_finite, fle_of_finite_of_inf, fle_of_inf_of_inf⟩
  rw [fle_of_finite ha hb, decide_eq_true_iff, fpValue_le_iff_units_le]

end Sys2Proof.Machine
end

section
/-! The palette lookup (`43_palette.md`): the value for an index inside the palette and outside it, and the one response of
`PAL16`. -/

namespace Sys2Proof.Machine

/-- An index of the palette answers its own entry (R181). -/
theorem paletteValue_of_index {k : Int} (i : Fin 16) (h : k = (i.val : Int)) : paletteValue k = paletteEntry i.val := by
  have inside : 0 ≤ k ∧ k ≤ 15 := by omega
  rw [paletteValue, if_pos inside, h, Int.toNat_natCast]

/-- A signed index on either side of the palette answers the sentinel -1 (R180). -/
theorem paletteValue_of_outside {k : Int} (h : k < 0 ∨ 15 < k) : paletteValue k = paletteSentinel := by
  have outside : ¬ (0 ≤ k ∧ k ≤ 15) := by omega
  rw [paletteValue, if_neg outside]

/-- The meaning of `PAL16`: an `OK` response with the zero-extended palette value of the signed low half of A (R180). -/
theorem exec_pal16 (a b c : Word64) (s : State) :
    exec (.pal16 a b c) s = .next (s.respond .ok (result32 (paletteValue (operandSigned32 a)))) := rfl

/-- Settles O28: the opcode map at code 5, the response of `exec_pal16`, and the palette at each of its sixteen indices and
outside them. -/
theorem pal16AnswersColourOrSentinel : Obligations.Pal16AnswersColourOrSentinel := by
  intro s a b c k
  refine ⟨decodeWord_commandWord 5 a b c, paletteValue k, exec_pal16 a b c s, ?_⟩
  have entry : ∀ i : Fin 16, k = (i.val : Int) → paletteValue k = paletteEntry i.val := paletteValue_of_index
  exact ⟨entry 0, entry 1, entry 2, entry 3, entry 4, entry 5, entry 6, entry 7, entry 8, entry 9, entry 10, entry 11,
    entry 12, entry 13, entry 14, entry 15, paletteValue_of_outside⟩

end Sys2Proof.Machine
end

section
/-! The byte-delta filter (`44_byte_delta_filter.md`): what R191's check answers for each of its conditions, and what
`BDELTA` does on each answer of the check. -/

namespace Sys2Proof.Machine

/-- R191, first condition. -/
theorem byteDeltaCheck_of_length_nonpos (memSize src dest : Nat) {n : Int} (nonpos : n ≤ 0) :
    byteDeltaCheck memSize src dest n = some .invalidArgument := by
  rw [byteDeltaCheck, if_pos nonpos]

/-- R191, second condition. -/
theorem byteDeltaCheck_of_range_outside {memSize src dest : Nat} {n : Int} (positive : ¬ n ≤ 0)
    (outside : (memSize : Int) < src + n ∨ (memSize : Int) < dest + n) :
    byteDeltaCheck memSize src dest n = some .outOfBounds := by
  rw [byteDeltaCheck, if_neg positive, if_pos outside]

/-- R191, third condition. -/
theorem byteDeltaCheck_of_shared_byte {memSize src dest : Nat} {n : Int} (positive : ¬ n ≤ 0)
    (inside : ¬ ((memSize : Int) < src + n ∨ (memSize : Int) < dest + n))
    (shared : (src : Int) < dest + n ∧ (dest : Int) < src + n) :
    byteDeltaCheck memSize src dest n = some .invalidArgument := by
  rw [byteDeltaCheck, if_neg positive, if_neg inside, if_pos shared]

/-- A `BDELTA` that fails its check takes the fault that the check names, and does nothing else (R191, R213). -/
theorem exec_bdelta_of_failing {s : State} {a b c : Word64} {st : Status}
    (failing : byteDeltaCheck s.params.memSize (operandAddr s.params a) (operandAddr s.params b) (operandSigned32 c) =
      some st) :
    exec (.bdelta a b c) s = .next (s.raiseFault st) := by
  change execBdelta a b c s = _
  rw [execBdelta, failing]

/-- A `BDELTA` that passes its check runs the filter to its end and answers `OK` (R190). -/
theorem exec_bdelta_of_accepted {s : State} {a b c : Word64}
    (accepted : byteDeltaCheck s.params.memSize (operandAddr s.params a) (operandAddr s.params b) (operandSigned32 c) =
      none) :
    ∃ t, byteDeltaFilter (operandAddr s.params a) (operandAddr s.params b) (operandSigned32 c).toNat s = .ok t ∧
      exec (.bdelta a b c) s = .next (t.respond .ok resultNone) := by
  rcases execBdelta_cases a b c s with ⟨_, _, failing, _⟩ | ⟨t, _, filtered, answered⟩
  · simp [accepted] at failing
  · exact ⟨t, filtered, answered⟩

/-- The filter touches no field but the memory: `byteDeltaFilter_frame` on the record. -/
theorem byteDeltaFilter_eq_with_mem {src dest n : Nat} {s t : State} (hn : 1 ≤ n)
    (filtered : byteDeltaFilter src dest n s = .ok t) : t = { s with mem := t.mem } := by
  obtain ⟨hparams, hinFlight, hhost, hresponses, hseed, hdraws⟩ := byteDeltaFilter_frame src dest n s t hn filtered
  rw [← hparams, ← hinFlight, ← hhost, ← hresponses, ← hseed, ← hdraws]

/-- Settles O29: the check passes (`byteDeltaCheck_none_iff`), and `byteDeltaFilter_readByte` gives each byte afterwards:
the first one, a later one, and one outside the destination range. -/
theorem byteDeltaWritesTheDeltas : Obligations.ByteDeltaWritesTheDeltas := by
  intro s A B C n src dest length positive srcInside destInside disjoint
  have hn : operandSigned32 C = n := length
  obtain ⟨t, filtered, answered⟩ := exec_bdelta_of_accepted (s := s) (a := A) (b := B) (c := C)
    ((byteDeltaCheck_none_iff s.params.memSize src dest _).mpr (by omega))
  rw [hn, Int.toNat_natCast] at filtered
  have readByte := byteDeltaFilter_readByte src dest n s t positive filtered disjoint
  refine ⟨t.respond .ok resultNone, answered, ?_, ?_, fun i first last => ?_, fun a outside => ?_⟩
  · rw [byteDeltaFilter_eq_with_mem positive filtered]
    rfl
  · rw [State.readByte_respond, readByte, if_pos rfl]
  · rw [State.readByte_respond, readByte, if_neg (by omega), if_pos (by omega), Nat.add_sub_cancel_left]
  · rw [State.readByte_respond, readByte, if_neg (by omega), if_neg (by omega)]

/-- Settles O30: one lemma on the check for each condition that fails it; where none holds, the check passes and the
filter leaves the responses to the one `OK`. -/
theorem byteDeltaChecksBeforeItRuns : Obligations.ByteDeltaChecksBeforeItRuns := by
  intro s A B C src dest n size
  refine ⟨fun nonpos => ?lengthNonpos, fun positive outside => ?rangeOutside,
    fun positive inside shared => ?sharedByte, fun positive inside disjoint => ?accepted⟩
  case lengthNonpos => exact exec_bdelta_of_failing (byteDeltaCheck_of_length_nonpos _ _ _ nonpos)
  case rangeOutside => exact exec_bdelta_of_failing (byteDeltaCheck_of_range_outside positive outside)
  case sharedByte => exact exec_bdelta_of_failing (byteDeltaCheck_of_shared_byte positive inside shared)
  case accepted =>
    have hn : operandSigned32 C = n := rfl
    obtain ⟨t, filtered, answered⟩ := exec_bdelta_of_accepted (s := s) (a := A) (b := B) (c := C)
      ((byteDeltaCheck_none_iff _ _ _ _).mpr (by omega))
    obtain ⟨-, -, -, hresponses, -⟩ := byteDeltaFilter_frame _ _ _ s t (by omega) filtered
    refine ⟨t.respond .ok resultNone, answered, ?_⟩
    rw [State.respond_responses, hresponses, resultNone]

end Sys2Proof.Machine
end

section
/-! Exceptions (`60_exceptions.md`): every command either takes an exception in the state it found, or answers `OK`. A
response that is not `OK` therefore belongs to the first kind, which changes nothing else. -/

namespace Sys2Proof.Machine

/-- How a command ends: with a fault raised in the unchanged state `s`, or with an `OK` response. -/
theorem exec_raises_or_answers_ok (i : Instr) (s : State) :
    (∃ st, st ≠ .ok ∧ exec i s = .next (s.raiseFault st)) ∨ ∃ u res, exec i s = .next (State.respond u .ok res) := by
  cases i with
  | addI32 a b c => exact .inr ⟨s, _, exec_addI32 a b c s⟩
  | addI64 a b c => exact .inr ⟨s, _, exec_addI64 a b c s⟩
  | mandelF64 a b c => exact .inr ⟨s, _, rfl⟩
  | pal16 a b c => exact .inr ⟨s, _, exec_pal16 a b c s⟩
  | reserved a b c => exact .inl ⟨.illegalOp, by decide, exec_reserved a b c s⟩
  | addF32 a b c =>
    rcases execAddF32_cases a b c s with ⟨_, _, number⟩ | ⟨_, nan⟩
    · exact .inr ⟨s, _, number⟩
    · exact .inr ⟨s.countDraw, _, nan⟩
  | addF64 a b c =>
    rcases execAddF64_cases a b c s with ⟨_, _, number⟩ | ⟨_, nan⟩
    · exact .inr ⟨s, _, number⟩
    · exact .inr ⟨s.countDraw, _, nan⟩
  | bdelta a b c =>
    rcases execBdelta_cases a b c s with ⟨st, notOk, _, fault⟩ | ⟨u, _, _, ok⟩
    · exact .inl ⟨st, notOk, fault⟩
    · exact .inr ⟨u, _, ok⟩

/-- The last response after the end of a command is the one that was given. -/
theorem State.eq_of_respond_responses {u : State} {st : Status} {res : Word64} {before : List Response} {r : Response}
    (given : (u.respond st res).responses = before ++ [r]) : r = { status := st, result := res } := by
  rw [State.respond_responses] at given
  exact (List.singleton_inj.mp (List.append_inj_right' given rfl)).symm

/-- Settles O38, by the two ends of `exec_raises_or_answers_ok`: a raised fault is the claimed state, and an `OK` end
contradicts the response. -/
theorem faultingCommandHasNoEffect : Obligations.FaultingCommandHasNoEffect := by
  intro i s t r executed responses notOk
  rcases exec_raises_or_answers_ok i s with ⟨st, -, fault⟩ | ⟨u, res, ok⟩
  · obtain rfl : t = s.raiseFault st := Host.Outcome.next.inj (executed.symm.trans fault)
    obtain rfl : r = { status := st, result := 0 } := State.eq_of_respond_responses responses
    exact ⟨rfl, rfl⟩
  · obtain rfl : t = u.respond .ok res := Host.Outcome.next.inj (executed.symm.trans ok)
    obtain rfl : r = { status := .ok, result := res } := State.eq_of_respond_responses responses
    exact absurd rfl notOk

end Sys2Proof.Machine
end

section
/-! Encoding (`30_encoding.md`): decoding and encoding undo each other, and the decoder on numbers. -/

namespace Sys2Proof

/-- R70: a command word is its four fields side by side. -/
theorem commandWord_fields (w : CmdWord) : commandWord (opField w) (portA w) (portB w) (portC w) = w := by
  have opA : opField w ++ portA w = w.extractLsb' 128 67 := BitVec.extractLsb'_append_extractLsb'_eq_extractLsb' rfl
  have opAB : w.extractLsb' 128 67 ++ portB w = w.extractLsb' 64 131 :=
    BitVec.extractLsb'_append_extractLsb'_eq_extractLsb' rfl
  have opABC : w.extractLsb' 64 131 ++ portC w = w.extractLsb' 0 195 :=
    BitVec.extractLsb'_append_extractLsb'_eq_extractLsb' rfl
  rw [commandWord, opA, opAB, opABC, BitVec.extractLsb'_eq_self]

/-- The word of the operation that the opcode map gives a code carries that code (R72). -/
theorem encode_instrOf (op : BitVec 3) (a b c : Word64) : encode (instrOf op.toNat a b c) = commandWord op a b c := by
  have code : op = BitVec.ofNat 3 op.toNat := by simp
  have below : op.toNat < 8 := op.isLt
  rw [code, BitVec.toNat_ofNat, Nat.mod_eq_of_lt below]
  generalize op.toNat = n at below ⊢
  interval_cases n <;> rfl

theorem encode_decodeWord (w : CmdWord) : encode (decodeWord w) = w := by
  rw [decodeWord, encode_instrOf, commandWord_fields]

theorem decodeWord_encode (i : Instr) : decodeWord (encode i) = i := by
  cases i with
  | addI32 a b c => exact decodeWord_commandWord 0 a b c
  | addI64 a b c => exact decodeWord_commandWord 1 a b c
  | addF32 a b c => exact decodeWord_commandWord 2 a b c
  | addF64 a b c => exact decodeWord_commandWord 3 a b c
  | mandelF64 a b c => exact decodeWord_commandWord 4 a b c
  | pal16 a b c => exact decodeWord_commandWord 5 a b c
  | bdelta a b c => exact decodeWord_commandWord 6 a b c
  | reserved a b c => exact decodeWord_commandWord 7 a b c

/-- No port pattern is illegal (R76). -/
theorem Instr.wellFormed_eq_true (i : Instr) : i.wellFormed = true := by
  cases i <;> rfl

theorem decode_of_lt {n : Nat} (isWord : n < 2 ^ 195) : decode n = .ok (decodeWord (BitVec.ofNat 195 n)) := by
  rw [decode, if_pos isWord]

theorem decode_of_ge {n : Nat} (tooLong : 2 ^ 195 ≤ n) : decode n = .error .tooWide := by
  rw [decode, if_neg (Nat.not_lt.mpr tooLong)]

/-- Settles O1: decoding meets the code and the ports of each operation's word. -/
theorem decodingAnEncodedCommandGivesItBack : Obligations.DecodingAnEncodedCommandGivesItBack :=
  fun i _ => decodeWord_encode i

/-- Settles O2: the word is put together again from the fields that decoding took it apart into. -/
theorem encodingADecodedWordGivesItBack : Obligations.EncodingADecodedWordGivesItBack :=
  fun w => ⟨(decodeWord w).wellFormed_eq_true, encode_decodeWord w⟩

/-- Settles O4, by the two sides of 2^195. -/
theorem everyCommandWordDecodes : Obligations.EveryCommandWordDecodes := by
  refine ⟨fun w => ?_, fun n => decode_of_ge⟩
  rw [decode_of_lt w.isLt, BitVec.ofNat_toNat, BitVec.setWidth_eq]

/-- Settles O5: each word is that of the operation with the code in its leading digit. -/
theorem wordsOfTheSpecDecode : Obligations.WordsOfTheSpecDecode :=
  ⟨decodeWord_commandWord 0 0xDEADBEEF80000000 0x80000000 0, decodeWord_commandWord 1 0x7FFFFFFFFFFFFFFF 1 0,
    decodeWord_commandWord 2 0x3F666668 0x3DCCCCCD 0,
    decodeWord_commandWord 4 0x64 0x4000000000000000 0x4000000000000000, decodeWord_commandWord 5 4 0 0,
    decodeWord_commandWord 6 0xFFE 0xFFF 0xFFFFFFFF⟩

end Sys2Proof
end

section
/-! One step (`10_state.md`, `70_reset_and_hazards.md`): what the step is on each turn, and once, as the cases of
`StepNext`, all that a step which answers a next state can have done. -/

namespace Sys2Proof.Machine

/-- The turn of the command in flight: no move of the host is made during it. -/
theorem step_of_run {s : State} {w : CmdWord} (busy : s.inFlight = some w)
    (waiting : ∀ m ∈ s.host.head?, m.early = false) : step s = exec (decodeWord w) s := by
  rw [step, (s.turn_run_iff (decodeWord w)).mpr ⟨w, busy, rfl, waiting⟩]

/-- The turn of a move that is made during the command in flight. -/
theorem step_of_busyMove {s : State} {w : CmdWord} {act : HostAction} {rest : List HostMove}
    (busy : s.inFlight = some w) (next : s.host = { early := true, action := act } :: rest) :
    step s = hostMoveBusy w act { s with host := rest } := by
  have turn : s.turn = .busyMove w act := (s.turn_busyMove_iff w act).mpr ⟨busy, by rw [next, List.head?_cons]⟩
  rw [step, turn]
  simp only [State.popMove, next, List.tail_cons]

/-- The turn of a move on an idle block, where the mark says nothing (log 21). -/
theorem step_of_idleMove {s : State} {e : Bool} {act : HostAction} {rest : List HostMove}
    (idle : s.inFlight = none) (next : s.host = { early := e, action := act } :: rest) :
    step s = hostMoveIdle act { s with host := rest } := by
  have turn : s.turn = .idleMove act := (s.turn_idleMove_iff act).mpr ⟨idle, _, by rw [next, List.head?_cons], rfl⟩
  rw [step, turn]
  simp only [State.popMove, next, List.tail_cons]

/-- When the machine waits. -/
theorem State.turn_wait_iff (s : State) : s.turn = .wait ↔ s.inFlight = none ∧ s.host = [] := by
  unfold State.turn
  cases s.inFlight with
  | none => cases s.host <;> simp
  | some w => rcases s.host with _ | ⟨⟨_ | _, act⟩, rest⟩ <;> simp

/-- An idle block without a move of the host waits (R240). -/
theorem step_of_wait {s : State} (idle : s.inFlight = none) (noMove : s.host = []) : step s = .next s := by
  rw [step, s.turn_wait_iff.mpr ⟨idle, noMove⟩]

/-- All that a step from `s` to `t` can have done. -/
inductive StepNext (s t : State) : Prop where
  /-- The block ran the command in flight. -/
  | run (w : CmdWord) (busy : s.inFlight = some w) (waiting : ∀ m ∈ s.host.head?, m.early = false)
      (ran : exec (decodeWord w) s = .next t)
  /-- A reset abandoned the command in flight. -/
  | abandon (w : CmdWord) (busy : s.inFlight = some w)
      (next : s.host.head? = some { early := true, action := .reset })
      (result : t = (s.popMove.abandonCommand w).resetBlock)
  /-- The idle block accepted a command. -/
  | accept (w : CmdWord) (idle : s.inFlight = none) (result : t = s.popMove.accept w)
  /-- The host reset the idle block. -/
  | reset (idle : s.inFlight = none) (result : t = s.popMove.resetBlock)
  /-- The host read a byte. -/
  | read (result : t = s.popMove)
  /-- The host wrote a byte, between commands or during one. -/
  | write (m : HostMove) (a : Nat) (v : Byte) (next : m ∈ s.host.head?) (made : s.inFlight = none ∨ m.early = true)
      (action : m.action = .write a v) (inside : a < s.params.memSize) (result : t = s.popMove.setByte a v)
  /-- Nothing happened. -/
  | wait (idle : s.inFlight = none) (noMove : s.host = []) (result : t = s)

/-- `StepNext` on a move during the command in flight: of the moves that are not refused, a read, a write or a reset. -/
theorem StepNext.of_hostMoveBusy {s t : State} {w : CmdWord} {act : HostAction} (busy : s.inFlight = some w)
    (next : s.host.head? = some { early := true, action := act }) (moved : hostMoveBusy w act s.popMove = .next t) :
    StepNext s t := by
  cases act with
  | issue w' => simp [hostMoveBusy] at moved
  | reset => exact .abandon w busy next (Host.Outcome.next.inj moved).symm
  | read a =>
    simp only [hostMoveBusy] at moved
    split at moved
    · cases moved
    · exact .read ((hostRead_next_iff _ _ _).mp moved).2
  | write a v =>
    simp only [hostMoveBusy] at moved
    split at moved
    · cases moved
    · obtain ⟨inside, result⟩ := (hostWrite_next_iff _ _ _ _).mp moved
      exact .write _ a v next (.inr rfl) rfl inside result

/-- `StepNext` on a move while the block is idle. -/
theorem StepNext.of_hostMoveIdle {s t : State} {m : HostMove} (idle : s.inFlight = none) (next : s.host.head? = some m)
    (moved : hostMoveIdle m.action s.popMove = .next t) : StepNext s t := by
  obtain ⟨e, act⟩ := m
  cases act with
  | issue w => exact .accept w idle (Host.Outcome.next.inj moved).symm
  | reset => exact .reset idle (Host.Outcome.next.inj moved).symm
  | read a => exact .read ((hostRead_next_iff _ _ _).mp moved).2
  | write a v =>
    obtain ⟨inside, result⟩ := (hostWrite_next_iff _ _ _ _).mp moved
    exact .write _ a v next (.inl idle) rfl inside result

/-- Every step that answers a next state is one of the cases of `StepNext`. -/
theorem stepNext_of_step {s t : State} (stepped : step s = .next t) : StepNext s t := by
  rw [step] at stepped
  cases turn : s.turn with
  | busyMove w act =>
    obtain ⟨busy, next⟩ := (s.turn_busyMove_iff w act).mp turn
    exact .of_hostMoveBusy busy next (by rwa [turn] at stepped)
  | run i =>
    obtain ⟨w, busy, rfl, waiting⟩ := (s.turn_run_iff i).mp turn
    exact .run w busy waiting (by rwa [turn] at stepped)
  | idleMove act =>
    obtain ⟨idle, m, next, rfl⟩ := (s.turn_idleMove_iff act).mp turn
    exact .of_hostMoveIdle idle next (by rwa [turn] at stepped)
  | wait =>
    obtain ⟨idle, noMove⟩ := s.turn_wait_iff.mp turn
    rw [turn] at stepped
    exact .wait idle noMove (Host.Outcome.next.inj stepped).symm

/-- Settles O7. -/
theorem stepRunsTheCommandInFlight : Obligations.StepRunsTheCommandInFlight :=
  fun _ _ busy waiting => step_of_run busy waiting

/-- Settles O8: the idle block's turn accepts the word, and the turn after it runs the word. -/
theorem issuedCommandIsAcceptedAndRun : Obligations.IssuedCommandIsAcceptedAndRun :=
  fun _ _ _ _ idle next waiting => ⟨step_of_idleMove idle next, step_of_run rfl waiting⟩

/-- Settles O9: without a move the block waits; a reset sets the busy bit to what it is on an idle block. -/
theorem idleBlockWaitsAndResetsToIdle : Obligations.IdleBlockWaitsAndResetsToIdle := by
  refine ⟨fun s => step_of_wait, fun s e rest idle next => ?_⟩
  rw [step_of_idleMove idle next, hostMoveIdle, State.resetBlock, idle]

/-- Settles O49. -/
theorem secondCommandIsNotAccepted : Obligations.SecondCommandIsNotAccepted :=
  fun _ _ _ _ busy next => step_of_busyMove busy next

/-- The first move that `withCommand` leaves is not marked as made during the command. -/
theorem State.withCommand_waiting (s : State) (w : CmdWord) : ∀ m ∈ (s.withCommand w).host.head?, m.early = false := by
  intro m first
  have unmarked := List.head?_dropWhile_not (fun m : HostMove => m.early) s.host
  rw [State.withCommand_host] at first
  rw [Option.mem_def.mp first] at unmarked
  simpa using unmarked

/-- A table row that decodes holds the number of a command word. -/
theorem decodeTableWord_eq_some_iff (nbits w : Nat) (i : Instr) :
    decodeTableWord nbits w = some i ↔ w < 2 ^ 195 ∧ decodeWord (BitVec.ofNat 195 w) = i := by
  by_cases isWord : w < 2 ^ 195
  · simp only [decodeTableWord, decode_of_lt isWord, isWord, true_and, Option.some.injEq]
  · simp only [decodeTableWord, decode_of_ge (Nat.not_lt.mp isWord), isWord, false_and, reduceCtorEq]

/-- Settles O10: the placed word is in flight and no marked move comes first. -/
theorem placedCommandWordRunsNext : Obligations.PlacedCommandWordRunsNext := by
  intro s nbits w i decoded
  obtain ⟨-, rfl⟩ := (decodeTableWord_eq_some_iff nbits w i).mp decoded
  exact step_of_run rfl (s.withCommand_waiting _)

/-- Settles O43: the reset state has nothing in flight, no move and no written byte. -/
theorem resetStateIsIdle : Obligations.ResetStateIsIdle :=
  ⟨rfl, rfl, rfl, rfl, fun _ => rfl, step_of_wait rfl rfl⟩

end Sys2Proof.Machine
end

section
/-! Accesses of the host (`20_memory.md` section 7, `70_reset_and_hazards.md` section 5): which are made, which are
refused, and what a reset during a command leaves. -/

namespace Sys2Proof.Machine

theorem hostRead_of_inside {s : State} {a : Nat} (inside : a < s.params.memSize) : hostRead s a = .next s :=
  (hostRead_next_iff s s a).mpr ⟨inside, rfl⟩

theorem hostRead_of_outside {s : State} {a : Nat} (outside : s.params.memSize ≤ a) :
    hostRead s a = .fault (.addressOutsideMemory a) :=
  (hostRead_fault_iff s a _).mpr ⟨outside, rfl⟩

theorem hostWrite_of_inside {s : State} {a : Nat} (v : Byte) (inside : a < s.params.memSize) :
    hostWrite s a v = .next (s.setByte a v) :=
  (hostWrite_next_iff s _ a v).mpr ⟨inside, rfl⟩

theorem hostWrite_of_outside {s : State} {a : Nat} (v : Byte) (outside : s.params.memSize ≤ a) :
    hostWrite s a v = .fault (.addressOutsideMemory a) :=
  (hostWrite_fault_iff s a v _).mpr ⟨outside, rfl⟩

/-- A read that no rule forbids is an ordinary read, on an idle block and during a command. -/
theorem step_of_allowed_read {s : State} {early : Bool} {rest : List HostMove} {a : Nat}
    (next : s.host = { early := early, action := .read a } :: rest)
    (allowed : s.inFlight = none ∨
      early = true ∧ ∃ w, s.inFlight = some w ∧ inDestOf s.params (decodeWord w) a = false) :
    step s = hostRead { s with host := rest } a := by
  rcases allowed with idle | ⟨rfl, w, busy, notDest⟩
  · exact step_of_idleMove idle next
  · rw [step_of_busyMove busy next]
    simp [hostMoveBusy, notDest]

/-- A write that no rule forbids is an ordinary write, on an idle block and during a command. -/
theorem step_of_allowed_write {s : State} {early : Bool} {rest : List HostMove} {a : Nat} {v : Byte}
    (next : s.host = { early := early, action := .write a v } :: rest)
    (allowed : s.inFlight = none ∨
      early = true ∧ ∃ w, s.inFlight = some w ∧ inSourceOf s.params (decodeWord w) a = false ∧
        inDestOf s.params (decodeWord w) a = false) :
    step s = hostWrite { s with host := rest } a v := by
  rcases allowed with idle | ⟨rfl, w, busy, notSource, notDest⟩
  · exact step_of_idleMove idle next
  · rw [step_of_busyMove busy next]
    simp [hostMoveBusy, notSource, notDest]

/-- Settles O51: an allowed access is an ordinary one, and the two sides of `MEM_SIZE` decide what it does. -/
theorem allowedHostAccessIsMade : Obligations.AllowedHostAccessIsMade := by
  intro s early rest a v
  refine ⟨fun next allowed => ?read, fun next allowed => ?write⟩
  case read =>
    rw [step_of_allowed_read next allowed]
    exact ⟨fun inside => hostRead_of_inside inside, fun outside => hostRead_of_outside outside⟩
  case write =>
    rw [step_of_allowed_write next allowed]
    refine ⟨fun inside => ⟨_, hostWrite_of_inside v inside, rfl, State.readByte_setByte_same _ a v, fun b other => ?_⟩,
      fun outside => hostWrite_of_outside v outside⟩
    exact State.readByte_setByte_of_ne _ v other

/-- Settles O48: the two forbidden accesses meet the guard of `hostMoveBusy`, and the harmless read passes it. -/
theorem racingAccessIsRefused : Obligations.RacingAccessIsRefused := by
  intro s w A B C rest a v busy decoded
  refine ⟨fun next race => ?_, fun next race => ?_, fun next notDest inside => ?_⟩
  · rw [step_of_busyMove busy next]
    rcases race with inSource | inDest
    · simp [hostMoveBusy, decoded, inSource]
    · simp [hostMoveBusy, decoded, inDest]
  · rw [step_of_busyMove busy next]
    simp [hostMoveBusy, decoded, race]
  · rw [step_of_allowed_read next (.inr ⟨rfl, w, busy, decoded ▸ notDest⟩)]
    exact hostRead_of_inside inside

/-- Abandoning a command changes memory and the count of draws only. -/
theorem State.abandonCommand_frame (s : State) (w : CmdWord) :
    s.abandonCommand w = { s with mem := (s.abandonCommand w).mem, draws := (s.abandonCommand w).draws } := by
  rcases s.abandonCommand_cases w with same | ⟨a, b, c, -, -, abandoned⟩
  · rw [same]
  · rw [abandoned, State.countDraw, State.abandonRange_frame]

/-- Abandoning a command leaves every byte outside its destination range (R242). -/
theorem State.readByte_abandonCommand_of_not_dest {s : State} {w : CmdWord} {x : Nat}
    (notDest : inDestOf s.params (decodeWord w) x = false) : (s.abandonCommand w).readByte x = s.readByte x := by
  rcases s.abandonCommand_cases w with same | ⟨a, b, c, decoded, accepted, abandoned⟩
  · rw [same]
  · obtain ⟨positive, -⟩ := (byteDeltaCheck_none_iff _ _ _ _).mp accepted
    have outside : ¬ inDestOf s.params (.bdelta a b c) x = true := by simpa [← decoded] using notDest
    rw [inDestOf_bdelta_iff _ a b c x positive.le] at outside
    rw [abandoned, State.readByte_countDraw, State.readByte_abandonRange, if_neg outside]

/-- Abandoning an accepted `BDELTA` makes every byte of its destination range a free value (R242). -/
theorem State.readByte_abandonCommand_of_dest {s : State} {w : CmdWord} {a b c : Word64} {x : Nat}
    (decoded : decodeWord w = .bdelta a b c)
    (accepted : byteDeltaCheck s.params.memSize (operandAddr s.params a) (operandAddr s.params b) (operandSigned32 c) =
      none)
    (inDest : inDestOf s.params (.bdelta a b c) x = true) :
    (s.abandonCommand w).readByte x = Config.abandonedByte s.draws w x := by
  obtain ⟨positive, -⟩ := (byteDeltaCheck_none_iff _ _ _ _).mp accepted
  rw [inDestOf_bdelta_iff _ a b c x positive.le] at inDest
  rw [State.abandonCommand_of_accepted decoded accepted, State.readByte_countDraw, State.readByte_abandonRange,
    if_pos inDest]

/-- Settles O47: the reset's turn abandons the command, whose effect the lemmas on `abandonCommand` say. -/
theorem resetDuringACommandAbandonsIt : Obligations.ResetDuringACommandAbandonsIt := by
  intro s w rest busy next
  refine ⟨_, step_of_busyMove busy next, ?frame, fun a notDest => ?outside, fun A B C decoded => ?inside⟩
  case frame =>
    rw [State.abandonCommand_frame]
    rfl
  case outside =>
    rw [State.readByte_resetBlock]
    exact State.readByte_abandonCommand_of_not_dest (s := { s with host := rest }) notDest
  case inside =>
    split
    · rename_i accepted
      intro a inDest
      rw [State.readByte_resetBlock]
      exact State.readByte_abandonCommand_of_dest (s := { s with host := rest }) decoded accepted (decoded ▸ inDest)
    · rename_i st failing
      intro a
      rw [State.readByte_resetBlock, State.abandonCommand_of_failing (s := { s with host := rest }) decoded failing]
      rfl

end Sys2Proof.Machine
end

section
/-! The answers of the commands (`60_exceptions.md`): the meaning of each operation as an equation, and what these
equations say of the response. -/

namespace Sys2Proof.Machine

/-- A pattern with the exponent field of the NaNs and a fraction other than 0 is a NaN (R121). -/
theorem fpIsNaN_pack (F : Format) (s : Bool) {f : Nat} (positive : 0 < f) (fits : f < 2 ^ F.fracBits) :
    fpIsNaN F (fpPack F s F.expOnes f) = true := by
  have ones : F.expOnes < 2 ^ F.expBits := Nat.sub_lt (Nat.two_pow_pos _) one_pos
  rw [fpIsNaN, fpExp_pack F s _ f ones, fpFrac_pack F s _ f fits, beq_self_eq_true, Bool.true_and, bne_iff_ne]
  exact positive.ne'

/-- What a draw gives for binary32 is a NaN (R125). -/
theorem fpIsNaN_drawnNaN32 (d : Nat) (a b : Word32) : fpIsNaN binary32 (drawnNaN32 d a b) = true :=
  fpIsNaN_pack binary32 _ (Nat.succ_pos _) (Nat.succ_lt_succ (Config.nanBits32 d a b).2.isLt)

/-- What a draw gives for binary64 is a NaN (R125). -/
theorem fpIsNaN_drawnNaN64 (d : Nat) (a b : Word64) : fpIsNaN binary64 (drawnNaN64 d a b) = true :=
  fpIsNaN_pack binary64 _ (Nat.succ_pos _) (Nat.succ_lt_succ (Config.nanBits64 d a b).2.isLt)

/-- `ADD.F32` where the sum is a datum (R127). -/
theorem exec_addF32_of_number {a b : Word64} {r : Word32} (number : fadd binary32 (operand32 a) (operand32 b) = some r)
    (c : Word64) (s : State) : exec (.addF32 a b c) s = .next (s.respond .ok (result32 r)) := by
  change execAddF32 a b c s = _
  rw [execAddF32, number]

/-- `ADD.F32` where the sum is a NaN (R125, R127). -/
theorem exec_addF32_of_nan {a b : Word64} (nan : fadd binary32 (operand32 a) (operand32 b) = none)
    (c : Word64) (s : State) : exec (.addF32 a b c) s =
      .next (s.countDraw.respond .ok (result32 (drawnNaN32 s.draws (operand32 a) (operand32 b)))) := by
  change execAddF32 a b c s = _
  rw [execAddF32, nan]

/-- `ADD.F64` where the sum is a datum (R128). -/
theorem exec_addF64_of_number {a b r : Word64} (number : fadd binary64 (operand64 a) (operand64 b) = some r)
    (c : Word64) (s : State) : exec (.addF64 a b c) s = .next (s.respond .ok (result64 r)) := by
  change execAddF64 a b c s = _
  rw [execAddF64, number]

/-- `ADD.F64` where the sum is a NaN (R125, R128). -/
theorem exec_addF64_of_nan {a b : Word64} (nan : fadd binary64 (operand64 a) (operand64 b) = none)
    (c : Word64) (s : State) : exec (.addF64 a b c) s =
      .next (s.countDraw.respond .ok (result64 (drawnNaN64 s.draws (operand64 a) (operand64 b)))) := by
  change execAddF64 a b c s = _
  rw [execAddF64, nan]

/-- The meaning of `MANDEL.F64`: an `OK` response with the count (R160). -/
theorem exec_mandelF64 (a b c : Word64) (s : State) :
    exec (.mandelF64 a b c) s = .next (s.respond .ok
      (result32 (BitVec.ofNat 32 (escapeCount (operandSigned32 a) (operand64 b) (operand64 c))))) := rfl

/-- Settles O13: the opcode map at code 2, and the two answers of `ADD.F32`. -/
theorem addF32AnswersTheRoundedSum : Obligations.AddF32AnswersTheRoundedSum := fun s A B C =>
  ⟨decodeWord_commandWord 2 A B C, fun _ number => exec_addF32_of_number number C s,
    fun nan => ⟨_, fpIsNaN_drawnNaN32 _ _ _, exec_addF32_of_nan nan C s⟩⟩

/-- Settles O14: the opcode map at code 3, and the two answers of `ADD.F64`. -/
theorem addF64AnswersTheRoundedSum : Obligations.AddF64AnswersTheRoundedSum := fun s A B C =>
  ⟨decodeWord_commandWord 3 A B C, fun _ number => exec_addF64_of_number number C s,
    fun nan => ⟨_, fpIsNaN_drawnNaN64 _ _ _, exec_addF64_of_nan nan C s⟩⟩

/-- Settles O23: the opcode map at code 4, and the answer of `MANDEL.F64`. -/
theorem mandelAnswersTheCount : Obligations.MandelAnswersTheCount :=
  fun s A B C => ⟨decodeWord_commandWord 4 A B C, exec_mandelF64 A B C s⟩

/-- Settles O35: each meaning looks at its operand slices only. -/
theorem ignoredPortBitsHaveNoEffect : Obligations.IgnoredPortBitsHaveNoEffect := by
  intro s A A' B B' C C' lowA lowB lowC addr
  have slice : ∀ {P P' : Word64}, P.extractLsb' 0 32 = P'.extractLsb' 0 32 → operand32 P = operand32 P' := id
  have address : ∀ {P P' : Word64}, addr P P' → operandAddr s.params P = operandAddr s.params P' := id
  refine ⟨fun a b => ?addI32, rfl, fun a b => ?addF32, rfl, fun a => ?mandelF64, fun a => ?pal16, fun a b c => ?bdelta,
    rfl⟩
  case addI32 => rw [exec_addI32, exec_addI32, slice a, slice b]
  case addF32 =>
    change execAddF32 A B C s = execAddF32 A' B' C' s
    rw [execAddF32, execAddF32, slice a, slice b]
  case mandelF64 => rw [exec_mandelF64, exec_mandelF64, operandSigned32, operandSigned32, slice a]
  case pal16 => rw [exec_pal16, exec_pal16, operandSigned32, operandSigned32, slice a]
  case bdelta =>
    change execBdelta A B C s = execBdelta A' B' C' s
    rw [execBdelta, execBdelta, address a, address b, operandSigned32, operandSigned32, slice c]

/-- Settles O36: the block is idle after the response of `exec_eq_next_respond`, before which only memory and draws can
have changed. -/
theorem everyCommandIsAnswered : Obligations.EveryCommandIsAnswered := by
  intro i s
  obtain ⟨m, d, st, r, answered⟩ := exec_eq_next_respond i s
  exact ⟨_, { status := st, result := r }, answered, rfl, rfl, rfl, rfl, rfl⟩

/-- A next state of a command is the one that `EveryCommandIsAnswered` describes. -/
theorem exec_next_frame {i : Instr} {s t : State} (executed : exec i s = .next t) :
    t.inFlight = none ∧ (∃ r, t.responses = s.responses ++ [r]) ∧ t.params = s.params ∧ t.host = s.host ∧
      t.seed = s.seed := by
  obtain ⟨t', r, answered, idle, responses, params, host, seed⟩ := everyCommandIsAnswered i s
  obtain rfl : t = t' := Host.Outcome.next.inj (executed.symm.trans answered)
  exact ⟨idle, ⟨r, responses⟩, params, host, seed⟩

/-- R191's check at the operands of a `BDELTA`: it looks at the parameters and the ports alone. -/
abbrev operandCheck (p : Params) (a b c : Word64) : Option Status :=
  byteDeltaCheck p.memSize (operandAddr p a) (operandAddr p b) (operandSigned32 c)

/-- The checks of R191 answer no other status than `InvalidArgument` and `OutOfBounds`. -/
theorem byteDeltaCheck_status {memSize src dest : Nat} {n : Int} {st : Status}
    (failing : byteDeltaCheck memSize src dest n = some st) : st = .invalidArgument ∨ st = .outOfBounds := by
  rw [byteDeltaCheck] at failing
  split_ifs at failing
  · exact .inl (Option.some.inj failing).symm
  · exact .inr (Option.some.inj failing).symm
  · exact .inl (Option.some.inj failing).symm

/-- Settles O37: the response of each operation's equation. -/
theorem statusesEachOperationAnswers : Obligations.StatusesEachOperationAnswers := by
  intro i s
  cases i with
  | addI32 a b c => exact ⟨_, _, exec_addI32 a b c s, rfl, rfl⟩
  | addI64 a b c => exact ⟨_, _, exec_addI64 a b c s, rfl, rfl⟩
  | addF32 a b c =>
    rcases execAddF32_cases a b c s with ⟨_, _, number⟩ | ⟨_, nan⟩
    · exact ⟨_, _, number, rfl, rfl⟩
    · exact ⟨_, _, nan, rfl, rfl⟩
  | addF64 a b c =>
    rcases execAddF64_cases a b c s with ⟨_, _, number⟩ | ⟨_, nan⟩
    · exact ⟨_, _, number, rfl, rfl⟩
    · exact ⟨_, _, nan, rfl, rfl⟩
  | mandelF64 a b c => exact ⟨_, _, exec_mandelF64 a b c s, rfl, rfl⟩
  | pal16 a b c => exact ⟨_, _, exec_pal16 a b c s, rfl, rfl⟩
  | reserved a b c => exact ⟨_, _, exec_reserved a b c s, rfl, rfl⟩
  | bdelta a b c =>
    rcases execBdelta_cases a b c s with ⟨st, _, failing, fault⟩ | ⟨t, accepted, filtered, ok⟩
    · exact ⟨_, _, fault, rfl, .inr (byteDeltaCheck_status failing)⟩
    · obtain ⟨positive, -⟩ := (byteDeltaCheck_none_iff _ _ _ _).mp accepted
      obtain ⟨-, -, -, responses, -⟩ := byteDeltaFilter_frame _ _ _ s t (by omega) filtered
      exact ⟨_, { status := .ok, result := resultNone }, ok, by rw [State.respond_responses, responses], .inl rfl⟩

/-- The response that a next state of a command shows is the one the command ended with. -/
theorem response_of_exec {i : Instr} {s t u : State} {st : Status} {res : Word64} {r : Response}
    (answered : exec i s = .next (u.respond st res)) (executed : exec i s = .next t)
    (given : t.responses = s.responses ++ [r]) : r = { status := st, result := res } := by
  obtain rfl : t = u.respond st res := Host.Outcome.next.inj (executed.symm.trans answered)
  exact State.eq_of_respond_responses given

/-- A zero-extended result gives its 32 bits back, and its upper half is 0 (R74). -/
theorem extractLsb'_result32 (v : Word32) :
    (result32 v).extractLsb' 0 32 = v ∧ (result32 v).extractLsb' 32 32 = 0 := by
  constructor
  · rw [result32, BitVec.extractLsb'_setWidth_of_le (by decide), BitVec.extractLsb'_eq_self]
  · rw [result32, BitVec.extractLsb'_setWidth_of_le (by decide)]
    ext i hi
    simp

/-- Settles O40: every answer is an expression in the command and the parameters, but for the two drawn NaNs. -/
theorem responseDependsOnTheCommandOnly : Obligations.ResponseDependsOnTheCommandOnly := by
  intro i s s' t t' r r' params executed executed' given given'
  have same : ∀ {u u' : State} {st : Status} {res : Word64}, exec i s = .next (u.respond st res) →
      exec i s' = .next (u'.respond st res) → r = r' := fun answered answered' =>
    (response_of_exec answered executed given).trans (response_of_exec answered' executed' given').symm
  cases i with
  | addI32 a b c => exact .inl (same (exec_addI32 a b c s) (exec_addI32 a b c s'))
  | addI64 a b c => exact .inl (same (exec_addI64 a b c s) (exec_addI64 a b c s'))
  | mandelF64 a b c => exact .inl (same (exec_mandelF64 a b c s) (exec_mandelF64 a b c s'))
  | pal16 a b c => exact .inl (same (exec_pal16 a b c s) (exec_pal16 a b c s'))
  | reserved a b c => exact .inl (same (exec_reserved a b c s) (exec_reserved a b c s'))
  | addF32 a b c =>
    cases sum : fadd binary32 (operand32 a) (operand32 b) with
    | some v => exact .inl (same (exec_addF32_of_number sum c s) (exec_addF32_of_number sum c s'))
    | none =>
      obtain rfl := response_of_exec (exec_addF32_of_nan sum c s) executed given
      obtain rfl := response_of_exec (exec_addF32_of_nan sum c s') executed' given'
      refine .inr ⟨rfl, rfl, a, b, c, .inl ⟨rfl, ?_⟩⟩
      simp only [extractLsb'_result32, fpIsNaN_drawnNaN32, and_self]
  | addF64 a b c =>
    cases sum : fadd binary64 (operand64 a) (operand64 b) with
    | some v => exact .inl (same (exec_addF64_of_number sum c s) (exec_addF64_of_number sum c s'))
    | none =>
      obtain rfl := response_of_exec (exec_addF64_of_nan sum c s) executed given
      obtain rfl := response_of_exec (exec_addF64_of_nan sum c s') executed' given'
      exact .inr ⟨rfl, rfl, a, b, c, .inr ⟨rfl, fpIsNaN_drawnNaN64 _ _ _, fpIsNaN_drawnNaN64 _ _ _⟩⟩
  | bdelta a b c =>
    cases check : operandCheck s.params a b c with
    | some st => exact .inl (same (exec_bdelta_of_failing check) (exec_bdelta_of_failing (params ▸ check)))
    | none =>
      obtain ⟨u, -, answered⟩ := exec_bdelta_of_accepted check
      obtain ⟨u', -, answered'⟩ := exec_bdelta_of_accepted (s := s') (params ▸ check)
      exact .inl (same answered answered')

end Sys2Proof.Machine
end

section
/-! `BDELTA` on two states (`44_byte_delta_filter.md` section 3, R20), and the sum that undoes it (R192). -/

namespace Sys2Proof.Machine

/-- A `BDELTA` that answers `OK` has passed its check. -/
theorem byteDeltaCheck_of_ok {s t : State} {a b c res : Word64} (executed : exec (.bdelta a b c) s = .next t)
    (ok : t.responses = s.responses ++ [{ status := .ok, result := res }]) :
    operandCheck s.params a b c = none := by
  cases check : operandCheck s.params a b c with
  | none => rfl
  | some st =>
    have response := response_of_exec (exec_bdelta_of_failing check) executed ok
    exact absurd (Response.mk.inj response).1 fun isOk => byteDeltaCheck_ne_ok _ _ _ _ (isOk ▸ check)

/-- What reading gives after a `BDELTA` that passed its check, `byteDeltaFilter_readByte` at the command's operands. -/
theorem readByte_of_exec_bdelta {s t : State} {a b c : Word64} (executed : exec (.bdelta a b c) s = .next t)
    (accepted : operandCheck s.params a b c = none) (x : Nat) :
    t.readByte x = if x = operandAddr s.params b then s.readByte (operandAddr s.params a)
      else if operandAddr s.params b < x ∧ x < operandAddr s.params b + (operandSigned32 c).toNat then
        s.readByte (operandAddr s.params a + (x - operandAddr s.params b)) -
          s.readByte (operandAddr s.params a + (x - operandAddr s.params b) - 1)
      else s.readByte x := by
  obtain ⟨u, filtered, answered⟩ := exec_bdelta_of_accepted accepted
  obtain ⟨positive, -, -, disjoint⟩ := (byteDeltaCheck_none_iff _ _ _ _).mp accepted
  obtain rfl : t = u.respond .ok resultNone := Host.Outcome.next.inj (executed.symm.trans answered)
  rw [State.readByte_respond]
  exact byteDeltaFilter_readByte _ _ _ s u (by omega) filtered (by omega) x

/-- A `BDELTA` leaves every byte outside its destination range, also where it fails its check (R193, R213). -/
theorem readByte_of_exec_bdelta_of_not_dest {s t : State} {a b c : Word64} {x : Nat}
    (executed : exec (.bdelta a b c) s = .next t) (notDest : inDestOf s.params (.bdelta a b c) x = false) :
    t.readByte x = s.readByte x := by
  cases check : operandCheck s.params a b c with
  | some st =>
    obtain rfl : t = s.raiseFault st := Host.Outcome.next.inj (executed.symm.trans (exec_bdelta_of_failing check))
    rfl
  | none =>
    obtain ⟨positive, -⟩ := (byteDeltaCheck_none_iff _ _ _ _).mp check
    have outside := (inDestOf_bdelta_iff s.params a b c x positive.le).not.mp (by simp [notDest])
    rw [readByte_of_exec_bdelta executed check, if_neg (by omega), if_neg (by omega)]

/-- Which addresses the source range of a `BDELTA` holds, as numbers. -/
theorem inSourceOf_bdelta_iff (p : Params) (a b c : Word64) (x : Nat) :
    inSourceOf p (.bdelta a b c) x = true ↔
      operandAddr p a ≤ x ∧ (x : Int) < operandAddr p a + operandSigned32 c := by
  simp only [inSourceOf, inRange, Bool.and_eq_true, decide_eq_true_eq]

/-- Two states that agree on the source bytes of an accepted `BDELTA` agree on its destination bytes after it (R20). -/
theorem readByte_dest_of_agreeing_source {s s' t t' : State} {a b c : Word64} (params : s.params = s'.params)
    (executed : exec (.bdelta a b c) s = .next t) (executed' : exec (.bdelta a b c) s' = .next t')
    (accepted : operandCheck s.params a b c = none)
    (agree : ∀ x, inSourceOf s.params (.bdelta a b c) x = true → s.readByte x = s'.readByte x)
    {x : Nat} (inDest : inDestOf s.params (.bdelta a b c) x = true) : t.readByte x = t'.readByte x := by
  obtain ⟨positive, -⟩ := (byteDeltaCheck_none_iff _ _ _ _).mp accepted
  obtain ⟨first, last⟩ := (inDestOf_bdelta_iff s.params a b c x positive.le).mp inDest
  have source : ∀ y, operandAddr s.params a ≤ y → (y : Int) < operandAddr s.params a + operandSigned32 c →
      s.readByte y = s'.readByte y := fun y low high => agree y ((inSourceOf_bdelta_iff _ _ _ _ _).mpr ⟨low, high⟩)
  rw [readByte_of_exec_bdelta executed accepted, readByte_of_exec_bdelta executed' (params ▸ accepted), ← params]
  split_ifs with isFirst
  · exact source _ le_rfl (by omega)
  · rw [source _ (by omega) (by omega), source _ (by omega) (by omega)]
  · omega

/-- Settles O33. -/
theorem byteDeltaDependsOnSourceBytesOnly : Obligations.ByteDeltaDependsOnSourceBytesOnly :=
  fun _ _ _ _ _ _ _ params executed executed' ok agree _ inDest =>
    readByte_dest_of_agreeing_source params executed executed' (byteDeltaCheck_of_ok executed ok) agree inDest

/-- The ranges of an accepted `BDELTA` share no byte (R191). -/
theorem inDestOf_of_inSourceOf {p : Params} {a b c : Word64} {x : Nat}
    (accepted : operandCheck p a b c = none)
    (inSource : inSourceOf p (.bdelta a b c) x = true) : inDestOf p (.bdelta a b c) x = false := by
  obtain ⟨positive, -, -, disjoint⟩ := (byteDeltaCheck_none_iff _ _ _ _).mp accepted
  obtain ⟨low, high⟩ := (inSourceOf_bdelta_iff p a b c x).mp inSource
  rw [← Bool.not_eq_true, inDestOf_bdelta_iff p a b c x positive.le]
  omega

/-- Settles O32: a failing command fails again; an accepted one finds its source bytes as they were, so that it writes
the destination bytes it wrote, and leaves the others. -/
theorem repeatedByteDeltaChangesNothing : Obligations.RepeatedByteDeltaChangesNothing := by
  intro s t u A B C r executed repeated given
  obtain ⟨-, -, params, -, -⟩ := exec_next_frame executed
  cases check : operandCheck s.params A B C with
  | some st =>
    obtain rfl := response_of_exec (exec_bdelta_of_failing check) executed given
    obtain rfl : u = t.raiseFault st :=
      Host.Outcome.next.inj (repeated.symm.trans (exec_bdelta_of_failing (params.symm ▸ check)))
    exact ⟨rfl, fun _ => rfl⟩
  | none =>
    have checkAgain := params.symm ▸ check
    obtain ⟨v, -, answered⟩ := exec_bdelta_of_accepted check
    obtain rfl := response_of_exec answered executed given
    obtain ⟨v', -, answeredAgain⟩ := exec_bdelta_of_accepted checkAgain
    obtain ⟨-, ⟨r', givenAgain⟩, -⟩ := exec_next_frame repeated
    obtain rfl := response_of_exec answeredAgain repeated givenAgain
    refine ⟨givenAgain, fun a => ?_⟩
    cases inDest : inDestOf s.params (.bdelta A B C) a with
    | false => exact readByte_of_exec_bdelta_of_not_dest repeated (params.symm ▸ inDest)
    | true =>
      refine (readByte_dest_of_agreeing_source params.symm executed repeated check (fun x inSource => ?_) inDest).symm
      exact (readByte_of_exec_bdelta_of_not_dest executed (inDestOf_of_inSourceOf check inSource)).symm

/-- Settles O31: by induction on the position, each destination byte adding the difference to the source byte before. -/
theorem runningSumUndoesByteDelta : Obligations.RunningSumUndoesByteDelta := by
  intro s t A B C executed ok
  have accepted := byteDeltaCheck_of_ok executed ok
  have written := readByte_of_exec_bdelta executed accepted
  intro i
  induction i with
  | zero =>
    intro _
    rw [Finset.sum_range_one, Nat.add_zero, Nat.add_zero, written, if_pos rfl]
    exact Nat.mod_eq_of_lt (BitVec.isLt _)
  | succ i ih =>
    intro last
    have below : i + 1 < (operandSigned32 C).toNat := by
      change ((i + 1 : Nat) : Int) < operandSigned32 C at last
      omega
    have sum := ih (by omega)
    rw [Finset.sum_range_succ, written (operandAddr s.params B + (i + 1)), if_neg (by omega), if_pos (by omega),
      Nat.add_sub_cancel_left, ← Nat.add_assoc, Nat.add_sub_cancel, BitVec.toNat_sub]
    have := (s.readByte (operandAddr s.params A + i)).isLt
    have := (s.readByte (operandAddr s.params A + i + 1)).isLt
    omega

end Sys2Proof.Machine
end

section
/-! The machine as a whole: what every step keeps. Each statement reads off the cases of `StepNext`. -/

namespace Sys2Proof.Machine

/-- All that a command can do to memory: nothing, or the filter of an accepted `BDELTA` (R26). -/
theorem mem_of_exec {i : Instr} {s t : State} (executed : exec i s = .next t) :
    t.mem = s.mem ∨ ∃ a b c u, i = .bdelta a b c ∧
      operandCheck s.params a b c = none ∧
      byteDeltaFilter (operandAddr s.params a) (operandAddr s.params b) (operandSigned32 c).toNat s = .ok u ∧
      t.mem = u.mem := by
  have result : ∀ {u : State}, exec i s = .next u → t = u := fun h => Host.Outcome.next.inj (executed.symm.trans h)
  cases i with
  | addI32 a b c => exact .inl (by rw [result (exec_addI32 a b c s), State.respond_mem])
  | addI64 a b c => exact .inl (by rw [result (exec_addI64 a b c s), State.respond_mem])
  | mandelF64 a b c => exact .inl (by rw [result (exec_mandelF64 a b c s), State.respond_mem])
  | pal16 a b c => exact .inl (by rw [result (exec_pal16 a b c s), State.respond_mem])
  | reserved a b c => exact .inl (by rw [result (exec_reserved a b c s), State.raiseFault_mem])
  | addF32 a b c =>
    rcases execAddF32_cases a b c s with ⟨_, _, number⟩ | ⟨_, nan⟩
    · exact .inl (by rw [result number, State.respond_mem])
    · exact .inl (by rw [result nan, State.respond_mem, State.countDraw_mem])
  | addF64 a b c =>
    rcases execAddF64_cases a b c s with ⟨_, _, number⟩ | ⟨_, nan⟩
    · exact .inl (by rw [result number, State.respond_mem])
    · exact .inl (by rw [result nan, State.respond_mem, State.countDraw_mem])
  | bdelta a b c =>
    rcases execBdelta_cases a b c s with ⟨_, _, _, fault⟩ | ⟨u, accepted, filtered, ok⟩
    · exact .inl (by rw [result fault, State.raiseFault_mem])
    · exact .inr ⟨a, b, c, u, rfl, accepted, filtered, by rw [result ok, State.respond_mem]⟩

/-- Settles O39: `mem_of_exec` without its `BDELTA` case, and reading looks at memory and seed alone. -/
theorem onlyByteDeltaWritesMemory : Obligations.OnlyByteDeltaWritesMemory := by
  intro i s t notBdelta executed
  obtain ⟨-, -, -, -, seed⟩ := exec_next_frame executed
  rcases mem_of_exec executed with mem | ⟨a, b, c, -, isBdelta, -⟩
  · exact ⟨mem, t.readByte_congr s mem seed⟩
  · exact absurd isBdelta (notBdelta a b c)

/-- A command changes no byte outside its destination range as a `BDELTA`. -/
theorem readByte_of_exec_of_not_dest {i : Instr} {s t : State} {x : Nat} (executed : exec i s = .next t)
    (notDest : inDestOf s.params i x = false) : t.readByte x = s.readByte x := by
  rcases mem_of_exec executed with mem | ⟨a, b, c, -, rfl, -⟩
  · obtain ⟨-, -, -, -, seed⟩ := exec_next_frame executed
    exact t.readByte_congr s mem seed x
  · exact readByte_of_exec_bdelta_of_not_dest executed notDest

/-- Every entry of memory lies inside it (R40). -/
abbrev State.MemInside (s : State) : Prop := ∀ x ∈ s.mem, x.1 < s.params.memSize

/-- A write inside memory keeps its form and its bound. -/
theorem State.setByte_keeps_memory {s : State} {a : Nat} (v : Byte) (inside : a < s.params.memSize)
    (wf : Memory.wf s.mem) (bound : s.MemInside) : Memory.wf (s.setByte a v).mem ∧ (s.setByte a v).MemInside := by
  refine ⟨Memory.insert_wf _ a v wf, fun x entry => ?_⟩
  rcases Memory.mem_insert _ _ _ _ entry with rfl | old
  · exact inside
  · exact bound x old

/-- Abandoning a command keeps the form and the bound of memory: an accepted `BDELTA` has its range inside. -/
theorem State.abandonCommand_keeps_memory {s : State} (w : CmdWord) (wf : Memory.wf s.mem) (bound : s.MemInside) :
    Memory.wf (s.abandonCommand w).mem ∧ (s.abandonCommand w).MemInside := by
  rcases s.abandonCommand_cases w with same | ⟨a, b, c, -, accepted, abandoned⟩
  · rw [same]
    exact ⟨wf, bound⟩
  · obtain ⟨positive, -, destInside, -⟩ := (byteDeltaCheck_none_iff _ _ _ _).mp accepted
    rw [abandoned]
    refine ⟨State.abandonRange_wf s w _ _ wf, fun x entry => ?_⟩
    rw [State.countDraw_params, State.abandonRange_params]
    rcases State.mem_abandonRange s w _ _ x entry with old | ⟨-, high⟩
    · exact bound x old
    · omega

/-- A command keeps the form and the bound of memory: the filter writes inside the destination range only. -/
theorem exec_keeps_memory {i : Instr} {s t : State} (executed : exec i s = .next t) (wf : Memory.wf s.mem)
    (bound : s.MemInside) : Memory.wf t.mem ∧ t.MemInside := by
  obtain ⟨-, -, params, -, -⟩ := exec_next_frame executed
  rw [State.MemInside, params]
  rcases mem_of_exec executed with mem | ⟨a, b, c, u, -, accepted, filtered, mem⟩
  · rw [mem]
    exact ⟨wf, bound⟩
  · obtain ⟨positive, -, destInside, -⟩ := (byteDeltaCheck_none_iff _ _ _ _).mp accepted
    rw [mem]
    refine ⟨byteDeltaFilter_wf _ _ _ s u (by omega) filtered wf, fun x entry => ?_⟩
    rcases byteDeltaFilter_mem _ _ _ s u (by omega) filtered x entry with old | ⟨-, high⟩
    · exact bound x old
    · omega

/-- A command keeps the responses legal: the new one has `R` = 0 unless it is `OK` (R213). -/
theorem exec_keeps_responses_legal {i : Instr} {s t : State} (executed : exec i s = .next t)
    (legal : ∀ r ∈ s.responses, Response.legal r) : ∀ r ∈ t.responses, Response.legal r := by
  obtain ⟨-, ⟨new, given⟩, -⟩ := exec_next_frame executed
  intro r listed
  rw [given, List.mem_append, List.mem_singleton] at listed
  rcases listed with old | rfl
  · exact legal r old
  · exact fun notOk => (faultingCommandHasNoEffect i s t r executed given notOk).1

/-- Settles O41, by what the step did: a command, a reset during one and a write keep memory's form and bound; only a
command adds a response; the other moves touch nothing the invariant speaks of. -/
theorem everyStepKeepsTheInvariant : Obligations.EveryStepKeepsTheInvariant := by
  intro s t ⟨params, wf, bound, legal⟩ stepped
  cases stepNext_of_step stepped with
  | run w busy waiting ran =>
    obtain ⟨-, -, sameParams, -, -⟩ := exec_next_frame ran
    obtain ⟨wf', bound'⟩ := exec_keeps_memory ran wf bound
    exact ⟨sameParams ▸ params, wf', bound', exec_keeps_responses_legal ran legal⟩
  | abandon w busy next result =>
    obtain ⟨wf', bound'⟩ := State.abandonCommand_keeps_memory (s := s.popMove) w wf bound
    have frame := s.popMove.abandonCommand_frame w
    have sameParams : (s.popMove.abandonCommand w).params = s.params := by rw [frame]; rfl
    have sameResponses : (s.popMove.abandonCommand w).responses = s.responses := by rw [frame]; rfl
    subst result
    exact ⟨sameParams.symm ▸ params, wf', bound', sameResponses.symm ▸ legal⟩
  | write m a v next made action inside result =>
    obtain ⟨wf', bound'⟩ := State.setByte_keeps_memory (s := s.popMove) v inside wf bound
    exact result ▸ ⟨params, wf', bound', legal⟩
  | accept w idle result => exact result ▸ ⟨params, wf, bound, legal⟩
  | reset idle result => exact result ▸ ⟨params, wf, bound, legal⟩
  | read result => exact result ▸ ⟨params, wf, bound, legal⟩
  | wait idle noMove result => exact result ▸ ⟨params, wf, bound, legal⟩

/-- Settles O42: the default parameters lie in R7's ranges, and the lists are empty. -/
theorem resetStateHasTheInvariant : Obligations.ResetStateHasTheInvariant :=
  ⟨by decide, .nil, fun _ entry => absurd entry List.not_mem_nil, fun _ listed => absurd listed List.not_mem_nil⟩

/-- Settles O44, by what the step did. -/
theorem noStepChangesTheParameters : Obligations.NoStepChangesTheParameters := by
  intro s t stepped
  cases stepNext_of_step stepped with
  | run w busy waiting ran =>
    obtain ⟨-, -, params, -, seed⟩ := exec_next_frame ran
    exact ⟨params, seed⟩
  | abandon w busy next result =>
    rw [result, State.abandonCommand_frame]
    exact ⟨rfl, rfl⟩
  | write m a v next made action inside result => exact result ▸ ⟨rfl, rfl⟩
  | accept w idle result => exact result ▸ ⟨rfl, rfl⟩
  | reset idle result => exact result ▸ ⟨rfl, rfl⟩
  | read result => exact result ▸ ⟨rfl, rfl⟩
  | wait idle noMove result => exact result ▸ ⟨rfl, rfl⟩

/-- Settles O45: of the things a step can do, only running a command touches the responses. -/
theorem responsesComeFromCommandsOnly : Obligations.ResponsesComeFromCommandsOnly := by
  intro s t stepped
  cases stepNext_of_step stepped with
  | run w busy waiting ran =>
    obtain ⟨idle, ⟨r, given⟩, -⟩ := exec_next_frame ran
    exact .inr ⟨w, r, busy, ran, idle, given⟩
  | abandon w busy next result => exact .inl (by rw [result, State.abandonCommand_frame]; rfl)
  | write m a v next made action inside result => exact .inl (result ▸ rfl)
  | accept w idle result => exact .inl (result ▸ rfl)
  | reset idle result => exact .inl (result ▸ rfl)
  | read result => exact .inl (result ▸ rfl)
  | wait idle noMove result => exact .inl (result ▸ rfl)

/-- Settles O46: a run and a reset change bytes of the destination range only, a write changes its own byte, and the
other moves leave memory as it was. -/
theorem memoryChangesOnlyByHostOrByteDelta : Obligations.MemoryChangesOnlyByHostOrByteDelta := by
  intro s t a stepped changed
  cases stepNext_of_step stepped with
  | run w busy waiting ran =>
    have inDest := mt (readByte_of_exec_of_not_dest ran) changed
    refine .inl ⟨w, busy, Bool.of_not_eq_false inDest, fun m first early => ?_⟩
    exact absurd (waiting m first) (by simp [early])
  | abandon w busy next result =>
    have inDest := mt (State.readByte_abandonCommand_of_not_dest (s := s.popMove)) (result ▸ changed)
    refine .inl ⟨w, busy, Bool.of_not_eq_false inDest, fun m first _ => ?_⟩
    rw [next] at first
    exact Option.some.inj first ▸ rfl
  | write m b v next made action inside result =>
    by_cases written : a = b
    · refine .inr ⟨m, next, made, ?_⟩
      rw [action, written, result, State.readByte_setByte_same]
    · exact absurd (result ▸ State.readByte_setByte_of_ne s.popMove v written) changed
  | accept w idle result => exact absurd (result ▸ rfl) changed
  | reset idle result => exact absurd (result ▸ rfl) changed
  | read result => exact absurd (result ▸ rfl) changed
  | wait idle noMove result => exact absurd (result ▸ rfl) changed

end Sys2Proof.Machine
end

section
/-! Rounding (`41_fp_add.md` section 2): the machine's rounding on whole numbers is `round_F` of R123 in rational
arithmetic. The two agree part by part: the exponent, the rounded significand, and the packing of both. -/

namespace Sys2Proof.Machine

/-- The formats in use have at least two exponent bits and one fraction bit. The rounding needs no more of them. -/
structure Format.Regular (F : Format) : Prop where
  two_le_expBits : 2 ≤ F.expBits
  fracBits_pos : 1 ≤ F.fracBits

theorem Format.regular_of_named {F : Format} (named : F = binary32 ∨ F = binary64) : F.Regular := by
  rcases named with rfl | rfl <;> constructor <;> decide

theorem Format.Regular.bias_pos {F : Format} (regular : F.Regular) : 1 ≤ F.bias := by
  have : 2 ^ 1 ≤ 2 ^ (F.expBits - 1) := Nat.pow_le_pow_right two_pos (by have := regular.two_le_expBits; omega)
  rw [Format.bias]
  omega

/-- The exponent field of the infinities lies one above that of the greatest finite data, `emax + bias`. -/
theorem Format.Regular.expOnes_eq {F : Format} (regular : F.Regular) : F.expOnes = 2 * F.bias + 1 := by
  have := regular.two_le_expBits
  have split : 2 ^ F.expBits = 2 * 2 ^ (F.expBits - 1) := by rw [← Nat.pow_succ']; congr 1; omega
  have := Nat.two_pow_pos (F.expBits - 1)
  rw [Format.expOnes, Format.bias]
  omega

/-- R123's `m`: a rational number rounded to a whole one, ties to the even one. -/
def roundHalfEven (y : ℚ) : Int :=
  if y - ⌊y⌋ < 1 / 2 then ⌊y⌋ else if 1 / 2 < y - ⌊y⌋ then ⌊y⌋ + 1 else if ⌊y⌋ % 2 = 0 then ⌊y⌋ else ⌊y⌋ + 1

/-- R123's last lines: the datum of sign `s` for the rounded significand `m` at the exponent `E`. -/
def packRounded (F : Format) (s : Bool) (E m : Int) : BitVec F.bits :=
  let E' := if m = 2 ^ (F.fracBits + 1) then E + 1 else E
  let m' := if m = 2 ^ (F.fracBits + 1) then 2 ^ F.fracBits else m
  if 2 ^ F.fracBits ≤ m' then
    if (F.bias : Int) < E' then fpPack F s F.expOnes 0
    else fpPack F s (E' + F.bias).toNat (m' - 2 ^ F.fracBits).toNat
  else fpPack F s 0 m'.toNat

/-- R123 in two parts: rounding the magnitude, and packing. -/
theorem roundRational_eq (F : Format) (x : ℚ) :
    roundRational F x = packRounded F (decide (x < 0)) (max (Int.log 2 |x|) F.emin)
      (roundHalfEven (|x| / 2 ^ (max (Int.log 2 |x|) F.emin - (F.fracBits : Int)))) := rfl

/-- Rounding a quotient by a power of two looks at the quotient and the remainder. -/
theorem roundHalfEven_div_two_pow (n sh : Nat) : roundHalfEven ((n : ℚ) / 2 ^ sh) = roundShift n sh := by
  have positive : (0 : ℚ) < 2 ^ sh := by positivity
  have quotient : ⌊(n : ℚ) / 2 ^ sh⌋ = ((n / 2 ^ sh : Nat) : Int) := by
    exact_mod_cast Rat.floor_natCast_div_natCast n (2 ^ sh)
  have remainder : (n : ℚ) / 2 ^ sh - ((n / 2 ^ sh : Nat) : Int) = ((n % 2 ^ sh : Nat) : ℚ) / 2 ^ sh := by
    have whole : (2 : ℚ) ^ sh * (n / 2 ^ sh : Nat) + (n % 2 ^ sh : Nat) = n := by
      exact_mod_cast Nat.div_add_mod n (2 ^ sh)
    rw [Int.cast_natCast, eq_div_iff positive.ne', sub_mul, div_mul_cancel₀ _ positive.ne']
    linarith
  have below : (n % 2 ^ sh : Nat) / (2 : ℚ) ^ sh < 1 / 2 ↔ 2 * (n % 2 ^ sh) < 2 ^ sh := by
    rw [div_lt_div_iff₀ positive two_pos, mul_comm, one_mul]
    exact_mod_cast Iff.rfl
  have above : (1 / 2 : ℚ) < (n % 2 ^ sh : Nat) / (2 : ℚ) ^ sh ↔ 2 ^ sh < 2 * (n % 2 ^ sh) := by
    rw [div_lt_div_iff₀ two_pos positive, mul_comm _ (2 : ℚ), one_mul]
    exact_mod_cast Iff.rfl
  have even : ((n / 2 ^ sh : Nat) : Int) % 2 = 0 ↔ n / 2 ^ sh % 2 = 0 := by omega
  rw [roundHalfEven, quotient, remainder, roundShift]
  simp only [below, above, even]
  split_ifs <;> push_cast <;> rfl

/-- The exponent of a whole number of units. -/
theorem intLog_natCast_mul_zpow {n : Nat} (nonzero : n ≠ 0) (e : Int) :
    Int.log 2 ((n : ℚ) * 2 ^ e) = (n.log2 : Int) + e := by
  have positive : (0 : ℚ) < n * 2 ^ e := by
    have : 0 < n := Nat.pos_of_ne_zero nonzero
    positivity
  have unit_pos : (0 : ℚ) < 2 ^ e := by positivity
  apply le_antisymm
  · rw [← Int.lt_add_one_iff, ← Int.lt_zpow_iff_log_lt one_lt_two positive, add_right_comm, Nat.cast_ofNat,
      zpow_add₀ two_ne_zero, mul_lt_mul_iff_of_pos_right unit_pos]
    exact_mod_cast Nat.lt_log2_self (n := n)
  · rw [← Int.zpow_le_iff_le_log one_lt_two positive, Nat.cast_ofNat, zpow_add₀ two_ne_zero,
      mul_le_mul_iff_of_pos_right unit_pos, zpow_natCast]
    exact_mod_cast Nat.log2_self_le nonzero

/-- What the rounding of a magnitude gives: no normal significand, a carry into the next power of two, or neither. -/
theorem fpRound_eq (F : Format) (k : Nat) (s : Bool) (n d m : Nat) (hd : d = n.log2 - (k + F.fracBits))
    (hm : m = roundShift n (d + k)) :
    fpRound F k s n =
      if m < 2 ^ F.fracBits then fpPack F s 0 m
      else if m = 2 ^ (F.fracBits + 1) then if F.expOnes ≤ d + 2 then fpInf F s else fpPack F s (d + 2) 0
      else if F.expOnes ≤ d + 1 then fpInf F s else fpPack F s (d + 1) (m - 2 ^ F.fracBits) := by
  subst hd hm
  by_cases carried : roundShift n (n.log2 - (k + F.fracBits) + k) = 2 ^ (F.fracBits + 1)
  · simp only [fpRound, floorLog2_eq, carried, beq_self_eq_true, if_true, Nat.sub_self]
  · simp only [fpRound, floorLog2_eq, beq_eq_false_iff_ne.mpr carried, if_neg carried, Bool.false_eq_true, if_false]

/-- Packing on whole numbers is R123's packing, at the exponent `emin + d`. -/
theorem fpRound_eq_packRounded {F : Format} (regular : F.Regular) (k : Nat) (s : Bool) (n d m : Nat)
    (hd : d = n.log2 - (k + F.fracBits)) (hm : m = roundShift n (d + k)) :
    fpRound F k s n = packRounded F s (F.emin + d) m := by
  have ones := regular.expOnes_eq
  have less : (2 ^ F.fracBits : Nat) < 2 ^ (F.fracBits + 1) := Nat.pow_lt_pow_right one_lt_two (Nat.lt_succ_self _)
  have carry : (m : Int) = 2 ^ (F.fracBits + 1) ↔ m = 2 ^ (F.fracBits + 1) := by norm_cast
  have normal : (2 ^ F.fracBits : Int) ≤ m ↔ ¬ m < 2 ^ F.fracBits := by rw [Nat.not_lt]; norm_cast
  rw [fpRound_eq F k s n d m hd hm, packRounded, Format.emin]
  by_cases subnormal : m < 2 ^ F.fracBits
  · have notCarried : m ≠ 2 ^ (F.fracBits + 1) := by omega
    simp only [carry, notCarried, normal, subnormal, not_true_eq_false, if_true, if_false, Int.toNat_natCast]
  · by_cases carried : m = 2 ^ (F.fracBits + 1)
    · have exponent : (1 - (F.bias : Int) + d + 1 + F.bias).toNat = d + 2 := by omega
      have overflow : (F.bias : Int) < 1 - F.bias + d + 1 ↔ F.expOnes ≤ d + 2 := by omega
      simp only [carry, if_pos carried, if_neg subnormal, le_refl, if_true, sub_self, Int.toNat_zero, exponent,
        overflow, fpInf]
    · have exponent : (1 - (F.bias : Int) + d + F.bias).toNat = d + 1 := by omega
      have overflow : (F.bias : Int) < 1 - F.bias + d ↔ F.expOnes ≤ d + 1 := by omega
      have fraction : ((m : Int) - 2 ^ F.fracBits).toNat = m - 2 ^ F.fracBits := by
        rw [← Int.toNat_sub]; norm_cast
      simp only [carry, carried, normal, subnormal, not_false_eq_true, if_true, if_false, exponent, overflow, fraction,
        fpInf]

/-- The machine's rounding is `round_F`, for every regular format. -/
theorem fpRound_eq_roundRational {F : Format} (regular : F.Regular) (k : Nat) (s : Bool) {n : Nat} (nonzero : n ≠ 0) :
    fpRound F k s n =
      roundRational F ((if s then -1 else 1) * (n : ℚ) * (2 : ℚ) ^ (F.emin - (F.fracBits : Int) - (k : Int))) := by
  have unit_pos : (0 : ℚ) < 2 ^ (F.emin - (F.fracBits : Int) - (k : Int)) := by positivity
  have n_pos : (0 : ℚ) < n := Nat.cast_pos.mpr (Nat.pos_of_ne_zero nonzero)
  have magnitude : |(if s then -1 else 1) * (n : ℚ) * (2 : ℚ) ^ (F.emin - (F.fracBits : Int) - (k : Int))| =
      n * 2 ^ (F.emin - (F.fracBits : Int) - (k : Int)) := by
    rw [abs_mul, abs_mul, abs_of_pos unit_pos, abs_of_pos n_pos]
    cases s <;> simp
  have sign :
      decide ((if s then -1 else 1) * (n : ℚ) * (2 : ℚ) ^ (F.emin - (F.fracBits : Int) - (k : Int)) < 0) = s := by
    have := mul_pos n_pos unit_pos
    cases s
    · simpa using this.le
    · simpa using this
  have exponent : max (Int.log 2 ((n : ℚ) * 2 ^ (F.emin - (F.fracBits : Int) - (k : Int)))) F.emin =
      F.emin + (n.log2 - (k + F.fracBits) : Nat) := by
    rw [intLog_natCast_mul_zpow nonzero]
    omega
  have quotient : (n : ℚ) * 2 ^ (F.emin - (F.fracBits : Int) - (k : Int)) /
      2 ^ (F.emin + (n.log2 - (k + F.fracBits) : Nat) - (F.fracBits : Int)) =
      n / 2 ^ (n.log2 - (k + F.fracBits) + k) := by
    rw [mul_div_assoc, ← zpow_sub₀ two_ne_zero, div_eq_mul_inv, ← zpow_natCast, ← zpow_neg]
    congr 2
    push_cast
    ring
  rw [roundRational_eq, magnitude, sign, exponent, quotient, roundHalfEven_div_two_pow]
  exact fpRound_eq_packRounded regular k s n _ _ rfl rfl

/-- Settles O15. -/
theorem roundingIsTheSpecsRounding : Obligations.RoundingIsTheSpecsRounding :=
  fun _ named k s _ nonzero => fpRound_eq_roundRational (Format.regular_of_named named) k s nonzero

end Sys2Proof.Machine
end

section
/-! Sums, differences and products (`41_fp_add.md` sections 3 and 6): what `fadd`, `fsub` and `fmul` answer on each pair
of classes, and that their finite results are the exact ones, rounded. -/

namespace Sys2Proof.Machine

/-- R120: a datum is its three fields side by side. -/
theorem fpPack_fields (F : Format) (v : BitVec F.bits) : fpPack F (fpSign F v) (fpExp F v) (fpFrac F v) = v := by
  have sign : BitVec.ofBool (v.getLsbD (F.expBits + F.fracBits)) = v.extractLsb' (F.expBits + F.fracBits) 1 := by
    ext i hi
    obtain rfl : i = 0 := by omega
    simp
  have signExp : v.extractLsb' (F.expBits + F.fracBits) 1 ++ v.extractLsb' F.fracBits F.expBits =
      v.extractLsb' F.fracBits (1 + F.expBits) :=
    BitVec.extractLsb'_append_extractLsb'_eq_extractLsb' (Nat.add_comm _ _)
  have whole : v.extractLsb' F.fracBits (1 + F.expBits) ++ v.extractLsb' 0 F.fracBits = v.extractLsb' 0 F.bits :=
    BitVec.extractLsb'_append_extractLsb'_eq_extractLsb' (Nat.zero_add _).symm
  simp only [fpPack, fpSign, fpExp, fpFrac, BitVec.ofNat_toNat, BitVec.setWidth_eq]
  rw [sign, signExp, whole, BitVec.extractLsb'_eq_self]

/-- Two data with the same fields are the same datum. -/
theorem fp_eq_of_fields {F : Format} {a b : BitVec F.bits} (sign : fpSign F a = fpSign F b)
    (exp : fpExp F a = fpExp F b) (frac : fpFrac F a = fpFrac F b) : a = b := by
  rw [← fpPack_fields F a, ← fpPack_fields F b, sign, exp, frac]

theorem fpExp_lt (F : Format) (v : BitVec F.bits) : fpExp F v < 2 ^ F.expBits := BitVec.isLt _

theorem fpFrac_lt (F : Format) (v : BitVec F.bits) : fpFrac F v < 2 ^ F.fracBits := BitVec.isLt _

/-- The classes of R121 cover every pattern. -/
theorem fp_classes (F : Format) (v : BitVec F.bits) :
    fpIsNaN F v = true ∨ fpIsInf F v = true ∨ fpIsFinite F v = true := by
  simp only [fpIsNaN, fpIsInf, fpIsFinite, Bool.and_eq_true, beq_iff_eq, bne_iff_ne]
  tauto

/-- The exponent and the fraction of a zero (R121). -/
theorem fpIsZero_iff (F : Format) (v : BitVec F.bits) : fpIsZero F v = true ↔ fpExp F v = 0 ∧ fpFrac F v = 0 := by
  rw [fpIsZero, Bool.and_eq_true, beq_iff_eq, beq_iff_eq]

/-- The zeros are the data of magnitude 0. -/
theorem fpMag_eq_zero_iff (F : Format) (v : BitVec F.bits) : fpMag F v = 0 ↔ fpIsZero F v = true := by
  have := Nat.two_pow_pos F.fracBits
  rw [fpIsZero_iff, fpMag]
  split_ifs with subnormal
  · simp [subnormal]
  · simp [subnormal]

theorem fpUnits_eq_zero_iff (F : Format) (v : BitVec F.bits) : fpUnits F v = 0 ↔ fpMag F v = 0 := by
  rw [fpUnits]
  split_ifs <;> omega

theorem Format.Regular.expOnes_pos {F : Format} (regular : F.Regular) : 0 < F.expOnes := by
  rw [regular.expOnes_eq]
  exact Nat.succ_pos _

/-- A zero is finite. -/
theorem fpIsFinite_of_zero {F : Format} (regular : F.Regular) {v : BitVec F.bits} (zero : fpIsZero F v = true) :
    fpIsFinite F v = true := by
  obtain ⟨exp, -⟩ := (fpIsZero_iff F v).mp zero
  rw [fpIsFinite_iff, exp]
  exact regular.expOnes_pos.ne

/-- An infinity is no zero. -/
theorem fpIsZero_of_inf {F : Format} (regular : F.Regular) {v : BitVec F.bits} (inf : fpIsInf F v = true) :
    fpIsZero F v = false := by
  obtain ⟨exp, -⟩ := (fpIsInf_iff F v).mp inf
  have := regular.expOnes_pos
  rw [← Bool.not_eq_true, fpIsZero_iff, exp]
  omega

theorem fpExp_zero (F : Format) (s : Bool) : fpExp F (fpZero F s) = 0 := fpExp_pack F s 0 0 (Nat.two_pow_pos _)

theorem fpFrac_zero (F : Format) (s : Bool) : fpFrac F (fpZero F s) = 0 := fpFrac_pack F s 0 0 (Nat.two_pow_pos _)

theorem fpSign_zero (F : Format) (s : Bool) : fpSign F (fpZero F s) = s := fpSign_pack F s 0 0

theorem fpIsZero_zero (F : Format) (s : Bool) : fpIsZero F (fpZero F s) = true :=
  (fpIsZero_iff F _).mpr ⟨fpExp_zero F s, fpFrac_zero F s⟩

theorem fpUnits_of_zero {F : Format} {v : BitVec F.bits} (zero : fpIsZero F v = true) : fpUnits F v = 0 :=
  (fpUnits_eq_zero_iff F v).mpr ((fpMag_eq_zero_iff F v).mpr zero)

/-- A pattern packed with the exponent field of the infinities and no fraction is an infinity. -/
theorem fpIsInf_inf (F : Format) (s : Bool) : fpIsInf F (fpInf F s) = true := by
  have ones : F.expOnes < 2 ^ F.expBits := Nat.sub_lt (Nat.two_pow_pos _) one_pos
  exact (fpIsInf_iff F _).mpr ⟨fpExp_pack F s _ 0 ones, fpFrac_pack F s _ 0 (Nat.two_pow_pos _)⟩

/-- R124: a sum with a NaN is a NaN. -/
theorem fadd_of_nan {F : Format} {a b : BitVec F.bits} (nan : fpIsNaN F a = true ∨ fpIsNaN F b = true) :
    fadd F a b = none := by
  rcases nan with h | h <;> simp [fadd, h]

/-- R124: two infinities. -/
theorem fadd_of_inf_of_inf {F : Format} {a b : BitVec F.bits} (ha : fpIsInf F a = true) (hb : fpIsInf F b = true) :
    fadd F a b = if fpSign F a = fpSign F b then some a else none := by
  simp [fadd, ha, hb, fpIsNaN_of_inf ha, fpIsNaN_of_inf hb]

/-- R124: an infinity and a finite datum. -/
theorem fadd_of_inf_of_finite {F : Format} {a b : BitVec F.bits} (ha : fpIsInf F a = true)
    (hb : fpIsFinite F b = true) : fadd F a b = some a := by
  simp [fadd, ha, fpIsNaN_of_inf ha, fpIsNaN_of_finite hb, fpIsInf_of_finite hb]

/-- R124: a finite datum and an infinity. -/
theorem fadd_of_finite_of_inf {F : Format} {a b : BitVec F.bits} (ha : fpIsFinite F a = true)
    (hb : fpIsInf F b = true) : fadd F a b = some b := by
  simp [fadd, hb, fpIsNaN_of_inf hb, fpIsNaN_of_finite ha, fpIsInf_of_finite ha]

/-- R124: two finite data whose exact sum is not 0. -/
theorem fadd_of_finite_of_ne_zero {F : Format} {a b : BitVec F.bits} (ha : fpIsFinite F a = true)
    (hb : fpIsFinite F b = true) (nonzero : fpUnits F a + fpUnits F b ≠ 0) :
    fadd F a b =
      some (fpRound F 0 (decide (fpUnits F a + fpUnits F b < 0)) (fpUnits F a + fpUnits F b).natAbs) := by
  simp [fadd, fpIsNaN_of_finite ha, fpIsNaN_of_finite hb, fpIsInf_of_finite ha, fpIsInf_of_finite hb, nonzero]

/-- R124: two finite data whose exact sum is 0. -/
theorem fadd_of_finite_of_eq_zero {F : Format} {a b : BitVec F.bits} (ha : fpIsFinite F a = true)
    (hb : fpIsFinite F b = true) (zero : fpUnits F a + fpUnits F b = 0) :
    fadd F a b = some (fpZero F (fpSign F a && fpSign F b)) := by
  cases hs : fpSign F a && fpSign F b <;>
    simp [fadd, fpIsNaN_of_finite ha, fpIsNaN_of_finite hb, fpIsInf_of_finite ha, fpIsInf_of_finite hb, zero, hs]

/-- Two infinities of one sign are one pattern. -/
theorem fp_eq_of_inf {F : Format} {a b : BitVec F.bits} (ha : fpIsInf F a = true) (hb : fpIsInf F b = true)
    (sign : fpSign F a = fpSign F b) : a = b := by
  obtain ⟨expA, fracA⟩ := (fpIsInf_iff F a).mp ha
  obtain ⟨expB, fracB⟩ := (fpIsInf_iff F b).mp hb
  exact fp_eq_of_fields sign (expA.trans expB.symm) (fracA.trans fracB.symm)

/-- Addition commutes on every pair of classes. -/
theorem fadd_comm (F : Format) (a b : BitVec F.bits) : fadd F a b = fadd F b a := by
  rcases fp_classes F a with ha | ha | ha
  · rw [fadd_of_nan (.inl ha), fadd_of_nan (.inr ha)]
  · rcases fp_classes F b with hb | hb | hb
    · rw [fadd_of_nan (.inl hb), fadd_of_nan (.inr hb)]
    · rw [fadd_of_inf_of_inf ha hb, fadd_of_inf_of_inf hb ha]
      by_cases sign : fpSign F a = fpSign F b
      · rw [fp_eq_of_inf ha hb sign]
      · rw [if_neg sign, if_neg (Ne.symm sign)]
    · rw [fadd_of_inf_of_finite ha hb, fadd_of_finite_of_inf hb ha]
  · rcases fp_classes F b with hb | hb | hb
    · rw [fadd_of_nan (.inl hb), fadd_of_nan (.inr hb)]
    · rw [fadd_of_finite_of_inf ha hb, fadd_of_inf_of_finite hb ha]
    · by_cases zero : fpUnits F a + fpUnits F b = 0
      · rw [fadd_of_finite_of_eq_zero ha hb zero, fadd_of_finite_of_eq_zero hb ha (by omega), Bool.and_comm]
      · rw [fadd_of_finite_of_ne_zero ha hb zero, fadd_of_finite_of_ne_zero hb ha (by omega), add_comm]

/-- The exact sum of two data in units of the least positive value. -/
theorem fpValue_add (F : Format) (a b : BitVec F.bits) :
    fpValue F a + fpValue F b = ((fpUnits F a + fpUnits F b : Int) : ℚ) * 2 ^ (F.emin - (F.fracBits : Int)) := by
  rw [fpValue_eq_units, fpValue_eq_units, Int.cast_add, add_mul]

/-- An exact number of units is 0 exactly when the number is. -/
theorem units_mul_eq_zero_iff (F : Format) (x : Int) :
    (x : ℚ) * 2 ^ (F.emin - (F.fracBits : Int)) = 0 ↔ x = 0 := by
  have unit_ne : (2 : ℚ) ^ (F.emin - (F.fracBits : Int)) ≠ 0 := by positivity
  rw [mul_eq_zero_iff_right unit_ne, Int.cast_eq_zero]

/-- A whole number as its sign and its magnitude. -/
theorem intCast_eq_sign_mul_natAbs (x : Int) :
    (x : ℚ) = (if decide (x < 0) then -1 else 1) * (x.natAbs : ℚ) := by
  rcases lt_or_ge x 0 with negative | nonneg
  · have : (x : ℚ) < 0 := Int.cast_lt_zero.mpr negative
    simp [negative, abs_of_neg this]
  · have : (0 : ℚ) ≤ x := Int.cast_nonneg nonneg
    simp [not_lt.mpr nonneg, abs_of_nonneg this]

/-- A non-zero finite sum is `round_F` of the exact sum (R124). -/
theorem fadd_eq_roundRational {F : Format} (regular : F.Regular) {a b : BitVec F.bits} (ha : fpIsFinite F a = true)
    (hb : fpIsFinite F b = true) (nonzero : fpUnits F a + fpUnits F b ≠ 0) :
    fadd F a b = some (roundRational F (fpValue F a + fpValue F b)) := by
  rw [fadd_of_finite_of_ne_zero ha hb nonzero, fpRound_eq_roundRational regular 0 _ (Int.natAbs_ne_zero.mpr nonzero),
    ← intCast_eq_sign_mul_natAbs, fpValue_add, Nat.cast_zero, sub_zero]

/-- Settles O16: one lemma on `fadd` for each pair of classes. -/
theorem faddIsTheExactSumRounded : Obligations.FaddIsTheExactSumRounded := by
  intro F named a b
  refine ⟨fadd_of_nan, fadd_of_inf_of_inf, fadd_of_inf_of_finite, fadd_of_finite_of_inf, fun ha hb => ?_,
    fadd_comm F a b⟩
  rw [fpValue_add, Ne, units_mul_eq_zero_iff, ← fpValue_add]
  exact ⟨fadd_eq_roundRational (Format.regular_of_named named) ha hb, fadd_of_finite_of_eq_zero ha hb⟩

-- Subtraction (R129): the negated datum has the other sign, and the other fields of the datum.

theorem fpSign_negate (F : Format) (v : BitVec F.bits) : fpSign F (fpNegate F v) = !fpSign F v := fpSign_pack F _ _ _

theorem fpExp_negate (F : Format) (v : BitVec F.bits) : fpExp F (fpNegate F v) = fpExp F v :=
  fpExp_pack F _ _ _ (fpExp_lt F v)

theorem fpFrac_negate (F : Format) (v : BitVec F.bits) : fpFrac F (fpNegate F v) = fpFrac F v :=
  fpFrac_pack F _ _ _ (fpFrac_lt F v)

theorem fpIsInf_negate (F : Format) (v : BitVec F.bits) : fpIsInf F (fpNegate F v) = fpIsInf F v := by
  rw [fpIsInf, fpIsInf, fpExp_negate, fpFrac_negate]

theorem fpIsFinite_negate (F : Format) (v : BitVec F.bits) : fpIsFinite F (fpNegate F v) = fpIsFinite F v := by
  rw [fpIsFinite, fpIsFinite, fpExp_negate]

theorem fpUnits_negate (F : Format) (v : BitVec F.bits) : fpUnits F (fpNegate F v) = -fpUnits F v := by
  rw [fpUnits, fpUnits, fpSign_negate, fpMag, fpMag, fpExp_negate, fpFrac_negate]
  cases fpSign F v <;> simp

/-- Negation inverts the top bit and no other. -/
theorem fpNegate_eq_xor (F : Format) (v : BitVec F.bits) :
    fpNegate F v = v ^^^ BitVec.twoPow F.bits (F.expBits + F.fracBits) := by
  have top : F.expBits + F.fracBits < F.bits := by rw [Format.bits]; omega
  have exp : (v ^^^ BitVec.twoPow F.bits (F.expBits + F.fracBits)).extractLsb' F.fracBits F.expBits =
      v.extractLsb' F.fracBits F.expBits := by
    ext i hi
    have : F.expBits + F.fracBits ≠ F.fracBits + i := by omega
    simp [this]
  have frac : (v ^^^ BitVec.twoPow F.bits (F.expBits + F.fracBits)).extractLsb' 0 F.fracBits =
      v.extractLsb' 0 F.fracBits := by
    ext i hi
    have : F.expBits + F.fracBits ≠ i := by omega
    simp [this]
  refine fp_eq_of_fields ?_ ?_ ?_
  · rw [fpSign_negate, fpSign, fpSign, BitVec.getLsbD_xor, BitVec.getLsbD_twoPow]
    simp [top]
  · rw [fpExp_negate, fpExp, fpExp, exp]
  · rw [fpFrac_negate, fpFrac, fpFrac, frac]

theorem fsub_of_nan {F : Format} {a b : BitVec F.bits} (nan : fpIsNaN F a = true ∨ fpIsNaN F b = true) :
    fsub F a b = none := by
  rcases nan with h | h <;> simp [fsub, h]

theorem fsub_of_not_nan {F : Format} {a b : BitVec F.bits} (ha : fpIsNaN F a = false) (hb : fpIsNaN F b = false) :
    fsub F a b = fadd F a (fpNegate F b) := by
  simp [fsub, ha, hb]

/-- Two infinities of opposite signs have no sum. -/
theorem fsub_self_of_inf {F : Format} {a : BitVec F.bits} (inf : fpIsInf F a = true) : fsub F a a = none := by
  rw [fsub_of_not_nan (fpIsNaN_of_inf inf) (fpIsNaN_of_inf inf),
    fadd_of_inf_of_inf inf ((fpIsInf_negate F a).trans inf), fpSign_negate, if_neg (by simp)]

/-- A difference of finite data whose exact value is 0: the sign is that of -0 only for -0 less +0. -/
theorem fsub_of_finite_of_eq {F : Format} {a b : BitVec F.bits} (ha : fpIsFinite F a = true)
    (hb : fpIsFinite F b = true) (equal : fpUnits F a = fpUnits F b) :
    fsub F a b = some (fpZero F (fpSign F a && !fpSign F b)) := by
  rw [fsub_of_not_nan (fpIsNaN_of_finite ha) (fpIsNaN_of_finite hb),
    fadd_of_finite_of_eq_zero ha ((fpIsFinite_negate F b).trans hb) (by rw [fpUnits_negate, equal, add_neg_cancel]),
    fpSign_negate]

/-- The difference of two zeros (R129). -/
theorem fsub_zero_zero {F : Format} (regular : F.Regular) (s s' : Bool) :
    fsub F (fpZero F s) (fpZero F s') = some (fpZero F (s && !s')) := by
  have finite : ∀ z, fpIsFinite F (fpZero F z) = true := fun z => fpIsFinite_of_zero regular (fpIsZero_zero F z)
  have units : ∀ z, fpUnits F (fpZero F z) = 0 := fun z => fpUnits_of_zero (fpIsZero_zero F z)
  rw [fsub_of_finite_of_eq (finite s) (finite s') ((units s).trans (units s').symm), fpSign_zero, fpSign_zero]

/-- Settles O20: subtraction adds the negated datum, and the special values are those of sums with it. -/
theorem fsubAddsTheNegatedOperand : Obligations.FsubAddsTheNegatedOperand := by
  intro F named a b
  have regular := Format.regular_of_named named
  refine ⟨fsub_of_nan, fun ha hb => ?_, fsub_self_of_inf, fun finite => ?_, fsub_zero_zero regular true false,
    fsub_zero_zero regular false true⟩
  · rw [fsub_of_not_nan ha hb, fpNegate_eq_xor]
  · rw [fsub_of_finite_of_eq finite finite rfl, Bool.and_not_self]
    rfl

-- Multiplication (R130).

theorem fmul_of_nan {F : Format} {a b : BitVec F.bits} (nan : fpIsNaN F a = true ∨ fpIsNaN F b = true) :
    fmul F a b = none := by
  rcases nan with h | h <;> simp [fmul, h]

/-- R130: zero times infinity. -/
theorem fmul_of_zero_times_inf {F : Format} (regular : F.Regular) {a b : BitVec F.bits}
    (classes : fpIsInf F a = true ∧ fpIsZero F b = true ∨ fpIsZero F a = true ∧ fpIsInf F b = true) :
    fmul F a b = none := by
  rcases classes with ⟨inf, zero⟩ | ⟨zero, inf⟩ <;>
    simp [fmul, inf, zero, fpIsNaN_of_inf inf, fpIsNaN_of_finite (fpIsFinite_of_zero regular zero)]

/-- R130: infinity times a datum other than 0. -/
theorem fmul_of_inf {F : Format} {a b : BitVec F.bits} (inf : fpIsInf F a = true ∨ fpIsInf F b = true)
    (notNaN : fpIsNaN F a = false ∧ fpIsNaN F b = false) (notZero : fpIsZero F a = false ∧ fpIsZero F b = false) :
    fmul F a b = some (fpInf F (fpSign F a != fpSign F b)) := by
  have either : (fpIsInf F a || fpIsInf F b) = true := by simpa using inf
  simp [fmul, notNaN, notZero, either]

/-- R130: two finite data. -/
theorem fmul_of_finite {F : Format} {a b : BitVec F.bits} (ha : fpIsFinite F a = true) (hb : fpIsFinite F b = true) :
    fmul F a b = if fpMag F a * fpMag F b ≠ 0
      then some (fpRound F F.mulShift (fpSign F a != fpSign F b) (fpMag F a * fpMag F b))
      else some (fpZero F (fpSign F a != fpSign F b)) := by
  simp only [fmul, fpIsNaN_of_finite ha, fpIsNaN_of_finite hb, fpIsInf_of_finite ha, fpIsInf_of_finite hb,
    Bool.or_self, Bool.false_eq_true, if_false]

/-- The product of two numbers of units, with the sign and the magnitude apart. -/
theorem fpUnits_mul (F : Format) (a b : BitVec F.bits) :
    fpUnits F a * fpUnits F b =
      (if fpSign F a != fpSign F b then -1 else 1) * ((fpMag F a * fpMag F b : Nat) : Int) := by
  rw [fpUnits, fpUnits]
  cases fpSign F a <;> cases fpSign F b <;> simp

/-- The exact product of two data, in the units that `fmul` rounds from. -/
theorem fpValue_mul {F : Format} (regular : F.Regular) (a b : BitVec F.bits) :
    fpValue F a * fpValue F b =
      (if fpSign F a != fpSign F b then -1 else 1) * ((fpMag F a * fpMag F b : Nat) : ℚ) *
        2 ^ (F.emin - (F.fracBits : Int) - (F.mulShift : Int)) := by
  have unit : (2 : ℚ) ^ (F.emin - (F.fracBits : Int) - (F.mulShift : Int)) =
      2 ^ (F.emin - (F.fracBits : Int)) * 2 ^ (F.emin - (F.fracBits : Int)) := by
    have := regular.bias_pos
    rw [← zpow_add₀ two_ne_zero, Format.mulShift, Format.emin]
    congr 1
    omega
  have units := congrArg (Int.cast (R := ℚ)) (fpUnits_mul F a b)
  rw [fpValue_eq_units, fpValue_eq_units, unit, mul_mul_mul_comm, ← Int.cast_mul, units]
  push_cast
  rfl

/-- The exact product is 0 exactly when a magnitude is. -/
theorem fpValue_mul_eq_zero_iff {F : Format} (regular : F.Regular) (a b : BitVec F.bits) :
    fpValue F a * fpValue F b = 0 ↔ fpMag F a * fpMag F b = 0 := by
  have unit_ne : (2 : ℚ) ^ (F.emin - (F.fracBits : Int) - (F.mulShift : Int)) ≠ 0 := by positivity
  have sign_ne : (if fpSign F a != fpSign F b then -1 else 1 : ℚ) ≠ 0 := by split_ifs <;> simp
  rw [fpValue_mul regular, mul_eq_zero_iff_right unit_ne, mul_eq_zero_iff_left sign_ne, Nat.cast_eq_zero]

/-- Settles O21: one lemma on `fmul` for each pair of classes. -/
theorem fmulIsTheExactProductRounded : Obligations.FmulIsTheExactProductRounded := by
  intro F named a b s
  have regular := Format.regular_of_named named
  refine ⟨fmul_of_nan, fun inf zero => fmul_of_zero_times_inf regular (.inl ⟨inf, zero⟩),
    fun zero inf => fmul_of_zero_times_inf regular (.inr ⟨zero, inf⟩), fun inf notNaN notZero => ?_,
    fun inf notNaN notZero => ?_, fun ha hb => ⟨fun nonzero => ?_, fun zero => ?_⟩⟩
  · exact fmul_of_inf (.inl inf) ⟨fpIsNaN_of_inf inf, notNaN⟩ ⟨fpIsZero_of_inf regular inf, notZero⟩
  · exact fmul_of_inf (.inr inf) ⟨notNaN, fpIsNaN_of_inf inf⟩ ⟨notZero, fpIsZero_of_inf regular inf⟩
  · rw [Ne, fpValue_mul_eq_zero_iff regular] at nonzero
    rw [fmul_of_finite ha hb, if_pos nonzero, fpRound_eq_roundRational regular _ _ nonzero, fpValue_mul regular]
  · rw [fpValue_mul_eq_zero_iff regular] at zero
    rw [fmul_of_finite ha hb, if_neg (not_not.mpr zero)]
    rfl

end Sys2Proof.Machine
end

section
/-! Rounded sums (`41_fp_add.md` section 2): the nearest whole multiple of a power of two, the magnitude that rounding
gives in units of the least positive value, and the three statements on finite sums: nearest, overflow, subnormal. -/

namespace Sys2Proof.Machine

/-- What rounding to a multiple of `2 ^ sh` gives: within half a step of the number, and even where half a step away. -/
theorem roundShift_spec (n sh : Nat) :
    2 * n ≤ 2 * (roundShift n sh * 2 ^ sh) + 2 ^ sh ∧ 2 * (roundShift n sh * 2 ^ sh) ≤ 2 * n + 2 ^ sh ∧
      (2 * n = 2 * (roundShift n sh * 2 ^ sh) + 2 ^ sh ∨ 2 * (roundShift n sh * 2 ^ sh) = 2 * n + 2 ^ sh →
        roundShift n sh % 2 = 0) := by
  have whole := Nat.div_add_mod' n (2 ^ sh)
  have below := Nat.mod_lt n (Nat.two_pow_pos sh)
  have next : (n / 2 ^ sh + 1) * 2 ^ sh = n / 2 ^ sh * 2 ^ sh + 2 ^ sh := Nat.succ_mul _ _
  simp only [roundShift]
  split_ifs <;> omega

/-- No multiple of the step is nearer than the rounded one, and of two equally near ones it is the even one. -/
theorem roundShift_nearest {n sh v : Nat} (multiple : 2 ^ sh ∣ v) :
    |((roundShift n sh * 2 ^ sh : Nat) : Int) - n| ≤ |(v : Int) - n| ∧
      (|((roundShift n sh * 2 ^ sh : Nat) : Int) - n| = |(v : Int) - n| → v ≠ roundShift n sh * 2 ^ sh →
        roundShift n sh % 2 = 0) := by
  obtain ⟨low, high, tie⟩ := roundShift_spec n sh
  have apart : v ≠ roundShift n sh * 2 ^ sh →
      v + 2 ^ sh ≤ roundShift n sh * 2 ^ sh ∨ roundShift n sh * 2 ^ sh + 2 ^ sh ≤ v := by
    obtain ⟨j, rfl⟩ := multiple
    rw [Nat.mul_comm, ← Nat.succ_mul, ← Nat.succ_mul]
    intro different
    rcases Nat.lt_or_gt_of_ne (fun equal => different (congrArg (· * 2 ^ sh) equal)) with less | more
    · exact .inl (Nat.mul_le_mul_right _ less)
    · exact .inr (Nat.mul_le_mul_right _ more)
  generalize roundShift n sh * 2 ^ sh = p at *
  simp only [Int.abs_eq_natAbs]
  omega

/-- The step of the rounding of a magnitude: R123's `E - emin`, the binary exponent above that of the least data. -/
def roundExp (F : Format) (n : Nat) : Nat := n.log2 - F.fracBits

/-- The significand that a magnitude is rounded to, in steps. -/
def roundSig (F : Format) (n : Nat) : Nat := roundShift n (roundExp F n)

/-- The magnitude that a magnitude is rounded to, in units of the least positive value; the exponent has no bound. -/
def roundMag (F : Format) (n : Nat) : Nat := roundSig F n * 2 ^ roundExp F n

theorem lt_two_pow_roundExp (F : Format) (n : Nat) : n < 2 ^ (F.fracBits + 1) * 2 ^ roundExp F n := by
  calc n < 2 ^ (n.log2 + 1) := Nat.lt_log2_self
    _ ≤ 2 ^ (F.fracBits + 1 + roundExp F n) := Nat.pow_le_pow_right two_pos (by rw [roundExp]; omega)
    _ = 2 ^ (F.fracBits + 1) * 2 ^ roundExp F n := Nat.pow_add _ _ _

/-- Above the least step a magnitude has all its significand bits. -/
theorem two_pow_roundExp_le (F : Format) {n : Nat} (coarse : roundExp F n ≠ 0) :
    2 ^ F.fracBits * 2 ^ roundExp F n ≤ n := by
  have nonzero : n ≠ 0 := by
    rintro rfl
    simp [roundExp] at coarse
  calc 2 ^ F.fracBits * 2 ^ roundExp F n = 2 ^ (F.fracBits + roundExp F n) := (Nat.pow_add _ _ _).symm
    _ = 2 ^ n.log2 := by rw [roundExp] at coarse ⊢; congr 1; omega
    _ ≤ n := Nat.log2_self_le nonzero

/-- At the least step nothing is rounded. -/
theorem roundMag_of_roundExp_eq_zero {F : Format} {n : Nat} (fine : roundExp F n = 0) : roundMag F n = n := by
  obtain ⟨low, high, -⟩ := roundShift_spec n 0
  rw [roundMag, roundSig, fine]
  omega

/-- Below `2 ^ emin` the step is the least one. -/
theorem roundExp_eq_zero_of_lt {F : Format} {n : Nat} (small : n < 2 ^ F.fracBits) : roundExp F n = 0 := by
  by_contra coarse
  have := two_pow_roundExp_le F coarse
  have := Nat.le_mul_of_pos_right (2 ^ F.fracBits) (Nat.two_pow_pos (roundExp F n))
  omega

theorem roundMag_zero (F : Format) : roundMag F 0 = 0 :=
  roundMag_of_roundExp_eq_zero (roundExp_eq_zero_of_lt (Nat.two_pow_pos F.fracBits))

/-- The rounded significand needs at most one bit more than the format has, and that only as a power of two. -/
theorem roundSig_le (F : Format) (n : Nat) : roundSig F n ≤ 2 ^ (F.fracBits + 1) := by
  obtain ⟨-, high, -⟩ := roundShift_spec n (roundExp F n)
  have below := lt_two_pow_roundExp F n
  have := Nat.two_pow_pos (roundExp F n)
  by_contra more
  have := Nat.mul_le_mul_right (2 ^ roundExp F n) (Nat.succ_le_of_lt (Nat.lt_of_not_le more))
  rw [Nat.succ_mul] at this
  simp only [roundSig] at this
  omega

/-- Above the least step the rounded significand is that of a normal datum. -/
theorem le_roundSig (F : Format) {n : Nat} (coarse : roundExp F n ≠ 0) : 2 ^ F.fracBits ≤ roundSig F n := by
  obtain ⟨low, -, -⟩ := roundShift_spec n (roundExp F n)
  have above := two_pow_roundExp_le F coarse
  have := Nat.two_pow_pos (roundExp F n)
  by_contra less
  have := Nat.mul_le_mul_right (2 ^ roundExp F n) (Nat.succ_le_of_lt (Nat.lt_of_not_le less))
  rw [Nat.succ_mul] at this
  simp only [roundSig] at this
  omega

/-- A magnitude other than 0 is not rounded to 0. -/
theorem roundMag_ne_zero (F : Format) {n : Nat} (nonzero : n ≠ 0) : roundMag F n ≠ 0 := by
  by_cases fine : roundExp F n = 0
  · rwa [roundMag_of_roundExp_eq_zero fine]
  · have := le_roundSig F fine
    have := Nat.two_pow_pos F.fracBits
    exact Nat.mul_ne_zero (by omega) (Nat.two_pow_pos _).ne'

/-- The data at or above the least multiple of the step that a normal significand has are multiples of the step. -/
theorem two_pow_dvd_fpMag {F : Format} {c : BitVec F.bits} {d : Nat} (large : 2 ^ F.fracBits * 2 ^ d ≤ fpMag F c) :
    2 ^ d ∣ fpMag F c := by
  have frac := fpFrac_lt F c
  have step_pos := Nat.two_pow_pos d
  rw [fpMag] at large ⊢
  split_ifs at large ⊢ with subnormal
  · have := Nat.le_mul_of_pos_right (2 ^ F.fracBits) step_pos
    omega
  · refine Nat.dvd_mul_left_of_dvd (Nat.pow_dvd_pow 2 ?_) _
    have : 2 ^ (F.fracBits + d) < 2 ^ (F.fracBits + 1 + (fpExp F c - 1)) := by
      calc 2 ^ (F.fracBits + d) ≤ (2 ^ F.fracBits + fpFrac F c) * 2 ^ (fpExp F c - 1) := by rwa [Nat.pow_add]
        _ < 2 ^ (F.fracBits + 1) * 2 ^ (fpExp F c - 1) := by
          refine Nat.mul_lt_mul_of_pos_right ?_ (Nat.two_pow_pos _)
          rw [Nat.pow_succ]
          omega
        _ = 2 ^ (F.fracBits + 1 + (fpExp F c - 1)) := (Nat.pow_add _ _ _).symm
    have := (Nat.pow_lt_pow_iff_right one_lt_two).mp this
    omega

/-- No datum's magnitude is nearer to `n` than the rounded one, and of two equally near ones the rounded one is even: a
datum that is no multiple of the step lies farther away than the least normal multiple. -/
theorem roundMag_nearest (F : Format) (n : Nat) (c : BitVec F.bits) :
    |(roundMag F n : Int) - n| ≤ |(fpMag F c : Int) - n| ∧
      (|(roundMag F n : Int) - n| = |(fpMag F c : Int) - n| → fpMag F c ≠ roundMag F n → roundSig F n % 2 = 0) := by
  by_cases large : 2 ^ F.fracBits * 2 ^ roundExp F n ≤ fpMag F c
  · exact roundShift_nearest (two_pow_dvd_fpMag large)
  · by_cases fine : roundExp F n = 0
    · exact roundShift_nearest (by rw [fine]; exact one_dvd _)
    · obtain ⟨nearest, -⟩ := roundShift_nearest (n := n) (Nat.dvd_mul_left (2 ^ roundExp F n) (2 ^ F.fracBits))
      have above := two_pow_roundExp_le F fine
      rw [roundMag, roundSig]
      simp only [Int.abs_eq_natAbs] at nearest ⊢
      omega

/-- Rounding carries into the power `2 ^ (fracBits + 1 + D)` exactly from half a step of `2 ^ D` below it on, since the
tie there goes to the even significand. -/
theorem two_pow_le_roundMag_iff (F : Format) (n D : Nat) :
    2 ^ (F.fracBits + 1 + D) ≤ roundMag F n ↔ 2 * 2 ^ (F.fracBits + 1 + D) ≤ 2 * n + 2 ^ D := by
  have split : 2 ^ (F.fracBits + 1 + D) = 2 * (2 ^ F.fracBits * 2 ^ D) := by
    rw [Nat.pow_add, Nat.pow_succ']
    ring
  have sig := Nat.mul_le_mul_right (2 ^ roundExp F n) (roundSig_le F n)
  have below := lt_two_pow_roundExp F n
  have one_le : 2 ^ D ≤ 2 ^ F.fracBits * 2 ^ D := Nat.le_mul_of_pos_left _ (Nat.two_pow_pos _)
  have step_pos := Nat.two_pow_pos D
  rw [Nat.pow_succ', Nat.mul_assoc] at sig below
  rw [split]
  rcases lt_trichotomy (roundExp F n) D with finer | same | coarser
  · have : 2 * 2 ^ roundExp F n ≤ 2 ^ D := by
      rw [← Nat.pow_succ']
      exact Nat.pow_le_pow_right two_pos finer
    have := Nat.mul_le_mul_left (2 ^ F.fracBits) this
    rw [Nat.mul_left_comm] at this
    rw [roundMag]
    omega
  · obtain ⟨low, high, tie⟩ := roundShift_spec n D
    rw [roundMag, roundSig, same, ← Nat.mul_assoc]
    constructor
    · intro carried
      omega
    · intro near
      by_contra less
      have fewer := Nat.lt_of_mul_lt_mul_right (Nat.lt_of_not_le less)
      have := Nat.mul_le_mul_right (2 ^ D) (Nat.succ_le_of_lt fewer)
      rw [Nat.succ_mul] at this
      have even := tie (.inl (by omega))
      have equal : (roundShift n D + 1) * 2 ^ D = 2 * 2 ^ F.fracBits * 2 ^ D := by
        rw [Nat.succ_mul]
        omega
      have := Nat.eq_of_mul_eq_mul_right step_pos equal
      omega
  · have : 2 * 2 ^ D ≤ 2 ^ roundExp F n := by
      rw [← Nat.pow_succ']
      exact Nat.pow_le_pow_right two_pos coarser
    have steps := Nat.mul_le_mul_left (2 ^ F.fracBits) this
    rw [Nat.mul_left_comm] at steps
    have coarse : roundExp F n ≠ 0 := by omega
    have sigLarge := Nat.mul_le_mul_right (2 ^ roundExp F n) (le_roundSig F coarse)
    have above := two_pow_roundExp_le F coarse
    rw [roundMag]
    omega

/-- The fields of a finite pattern, and its magnitude (R120, R122). -/
theorem fpPack_finite {F : Format} (s : Bool) {e f : Nat} (exp : e < F.expOnes) (frac : f < 2 ^ F.fracBits) :
    fpIsFinite F (fpPack F s e f) = true ∧ fpSign F (fpPack F s e f) = s ∧
      fpMag F (fpPack F s e f) = (if e = 0 then f else (2 ^ F.fracBits + f) * 2 ^ (e - 1)) ∧
      fpFrac F (fpPack F s e f) = f := by
  have fits : e < 2 ^ F.expBits := exp.trans_le (Nat.sub_le _ _)
  rw [fpIsFinite_iff, fpMag, fpExp_pack F s e f fits, fpFrac_pack F s e f frac]
  exact ⟨exp.ne, fpSign_pack F s e f, rfl, rfl⟩

/-- The rounding of a sum's magnitude, by what becomes of its significand. -/
theorem fpRound_zero_eq (F : Format) (s : Bool) (n : Nat) :
    fpRound F 0 s n =
      if roundSig F n < 2 ^ F.fracBits then fpPack F s 0 (roundSig F n)
      else if roundSig F n = 2 ^ (F.fracBits + 1) then
        if F.expOnes ≤ roundExp F n + 2 then fpInf F s else fpPack F s (roundExp F n + 2) 0
      else if F.expOnes ≤ roundExp F n + 1 then fpInf F s
      else fpPack F s (roundExp F n + 1) (roundSig F n - 2 ^ F.fracBits) :=
  fpRound_eq F 0 s n (roundExp F n) (roundSig F n) (by rw [roundExp, Nat.zero_add]) rfl

/-- What the rounding of a sum's magnitude gives below `2 ^ (emax + 1)`: a finite datum of the rounded magnitude, whose
fraction is even where the significand is. -/
theorem fpRound_of_finite {F : Format} (regular : F.Regular) (s : Bool) {n : Nat}
    (small : roundMag F n < 2 ^ (F.fracBits + 2 * F.bias)) :
    fpIsFinite F (fpRound F 0 s n) = true ∧ fpSign F (fpRound F 0 s n) = s ∧ fpMag F (fpRound F 0 s n) = roundMag F n ∧
      (roundSig F n % 2 = 0 → fpFrac F (fpRound F 0 s n) % 2 = 0) := by
  have ones := regular.expOnes_eq
  have most := roundSig_le F n
  have pow_succ : 2 ^ (F.fracBits + 1) = 2 * 2 ^ F.fracBits := Nat.pow_succ'
  have pow_even : 2 ^ F.fracBits % 2 = 0 := by
    rw [Nat.pow_mod, Nat.mod_self, Nat.zero_pow regular.fracBits_pos, Nat.zero_mod]
  have exponent : ∀ {e : Nat}, 2 ^ (F.fracBits + e) ≤ roundMag F n → e < 2 * F.bias := fun lower => by
    have := (Nat.pow_lt_pow_iff_right one_lt_two).mp (lower.trans_lt small)
    omega
  rw [fpRound_zero_eq]
  split_ifs with subnormal carried overflow overflow
  · have fine : roundExp F n = 0 := by
      by_contra coarse
      exact absurd (le_roundSig F coarse) (Nat.not_le.mpr subnormal)
    obtain ⟨finite, sign, mag, frac⟩ := fpPack_finite (F := F) s (by omega : 0 < F.expOnes) subnormal
    exact ⟨finite, sign, by rw [mag, if_pos rfl, roundMag, fine, pow_zero, mul_one], by rw [frac]; exact id⟩
  · have : roundExp F n + 1 < 2 * F.bias := exponent (by
      rw [roundMag, carried, ← Nat.pow_add]
      exact Nat.pow_le_pow_right two_pos (by omega))
    omega
  · obtain ⟨finite, sign, mag, frac⟩ :=
      fpPack_finite (F := F) s (Nat.lt_of_not_le overflow) (Nat.two_pow_pos F.fracBits)
    refine ⟨finite, sign, ?_, fun _ => by rw [frac]⟩
    rw [mag, if_neg (by omega), roundMag, carried, Nat.add_zero, ← Nat.pow_add, ← Nat.pow_add]
    congr 1
    omega
  · have : roundExp F n < 2 * F.bias :=
      exponent (by rw [roundMag, Nat.pow_add]; exact Nat.mul_le_mul_right _ (Nat.le_of_not_lt subnormal))
    omega
  · obtain ⟨finite, sign, mag, frac⟩ :=
      fpPack_finite (F := F) s (Nat.lt_of_not_le overflow) (by omega : roundSig F n - 2 ^ F.fracBits < 2 ^ F.fracBits)
    refine ⟨finite, sign, ?_, fun even => by rw [frac]; omega⟩
    rw [mag, if_neg (by omega), roundMag, Nat.add_sub_cancel' (Nat.le_of_not_lt subnormal), Nat.add_sub_cancel]

/-- What it gives from there on: the infinity of the sign. -/
theorem fpRound_of_overflow {F : Format} (regular : F.Regular) (s : Bool) {n : Nat}
    (large : 2 ^ (F.fracBits + 2 * F.bias) ≤ roundMag F n) : fpRound F 0 s n = fpInf F s := by
  have ones := regular.expOnes_eq
  have bias := regular.bias_pos
  have most := roundSig_le F n
  have exponent : ∀ {e : Nat}, roundMag F n < 2 ^ (F.fracBits + e) → 2 * F.bias < e := fun upper => by
    have := (Nat.pow_lt_pow_iff_right one_lt_two).mp (large.trans_lt upper)
    omega
  have next : roundMag F n < 2 ^ (F.fracBits + (roundExp F n + 2)) := by
    calc roundMag F n ≤ 2 ^ (F.fracBits + 1) * 2 ^ roundExp F n := Nat.mul_le_mul_right _ most
      _ = 2 ^ (F.fracBits + (roundExp F n + 1)) := by rw [← Nat.pow_add]; congr 1; omega
      _ < 2 ^ (F.fracBits + (roundExp F n + 2)) := Nat.pow_lt_pow_right one_lt_two (by omega)
  have := exponent next
  rw [fpRound_zero_eq, if_neg ?normal]
  case normal => exact Nat.not_lt.mpr (le_roundSig F (by omega))
  split_ifs with carried notOverflow overflow
  · rfl
  · omega
  · rfl
  · have : roundMag F n < 2 ^ (F.fracBits + (roundExp F n + 1)) := by
      calc roundMag F n < 2 ^ (F.fracBits + 1) * 2 ^ roundExp F n :=
            Nat.mul_lt_mul_of_pos_right (lt_of_le_of_ne most carried) (Nat.two_pow_pos _)
        _ = 2 ^ (F.fracBits + (roundExp F n + 1)) := by rw [← Nat.pow_add]; congr 1; omega
    have := exponent this
    omega

/-- A sum of finite data below the overflow is a finite datum of the rounded magnitude and the exact sum's sign. -/
theorem fadd_of_finite_of_small {F : Format} (regular : F.Regular) {a b : BitVec F.bits} (ha : fpIsFinite F a = true)
    (hb : fpIsFinite F b = true) {x : Int} (sum : fpUnits F a + fpUnits F b = x)
    (small : roundMag F x.natAbs < 2 ^ (F.fracBits + 2 * F.bias)) :
    ∃ r, fadd F a b = some r ∧ fpIsFinite F r = true ∧
      fpUnits F r = (if x < 0 then -(roundMag F x.natAbs : Int) else roundMag F x.natAbs) ∧
      (roundSig F x.natAbs % 2 = 0 → fpFrac F r % 2 = 0) := by
  by_cases zero : x = 0
  · refine ⟨_, fadd_of_finite_of_eq_zero ha hb (sum.trans zero), fpIsFinite_of_zero regular (fpIsZero_zero F _), ?_, ?_⟩
    · rw [fpUnits_of_zero (fpIsZero_zero F _), zero, Int.natAbs_zero, roundMag_zero]
      rfl
    · rw [fpFrac_zero]
      exact fun _ => rfl
  · obtain ⟨finite, sign, mag, frac⟩ := fpRound_of_finite regular (decide (x < 0)) small
    refine ⟨_, sum ▸ fadd_of_finite_of_ne_zero ha hb (sum ▸ zero), finite, ?_, frac⟩
    rw [fpUnits, sign, mag]
    simp only [decide_eq_true_eq]

/-- From the overflow on it is the infinity of the exact sum's sign. -/
theorem fadd_of_finite_of_large {F : Format} (regular : F.Regular) {a b : BitVec F.bits} (ha : fpIsFinite F a = true)
    (hb : fpIsFinite F b = true) {x : Int} (sum : fpUnits F a + fpUnits F b = x)
    (large : 2 ^ (F.fracBits + 2 * F.bias) ≤ roundMag F x.natAbs) : fadd F a b = some (fpInf F (decide (x < 0))) := by
  have nonzero : x ≠ 0 := by
    rintro rfl
    have := Nat.two_pow_pos (F.fracBits + 2 * F.bias)
    rw [Int.natAbs_zero, roundMag_zero] at large
    omega
  rw [fadd_of_finite_of_ne_zero ha hb (sum ▸ nonzero), sum, fpRound_of_overflow regular _ large]

/-- The distance of a datum from the exact sum of two others, in units. -/
theorem abs_fpValue_sub_add (F : Format) (c a b : BitVec F.bits) :
    |fpValue F c - (fpValue F a + fpValue F b)| =
      ((|fpUnits F c - (fpUnits F a + fpUnits F b)| : Int) : ℚ) * 2 ^ (F.emin - (F.fracBits : Int)) := by
  have unit_pos : (0 : ℚ) < 2 ^ (F.emin - (F.fracBits : Int)) := by positivity
  rw [fpValue_add, fpValue_eq_units, ← sub_mul, ← Int.cast_sub, abs_mul, abs_of_pos unit_pos, Int.cast_abs]

/-- No datum lies nearer to `x` units than the datum of the rounded magnitude and the sign of `x`, and of two equally
near ones its significand is the even one. -/
theorem fpUnits_nearest {F : Format} {r : BitVec F.bits} {x : Int} (c : BitVec F.bits)
    (units : fpUnits F r = (if x < 0 then -(roundMag F x.natAbs : Int) else roundMag F x.natAbs)) :
    |fpUnits F r - x| ≤ |fpUnits F c - x| ∧
      (|fpUnits F r - x| = |fpUnits F c - x| → fpUnits F c ≠ fpUnits F r → roundSig F x.natAbs % 2 = 0) := by
  obtain ⟨nearest, tie⟩ := roundMag_nearest F x.natAbs c
  have magnitude : fpUnits F c = fpMag F c ∨ fpUnits F c = -(fpMag F c : Int) := by
    rw [fpUnits]
    split_ifs <;> simp
  have zero : x.natAbs = 0 → roundMag F x.natAbs = 0 := fun h => h ▸ roundMag_zero F
  rw [units]
  simp only [Int.abs_eq_natAbs] at *
  split_ifs <;> omega

/-- Settles O17: a sum that is finite has not overflowed, so that it is the datum of the rounded magnitude. -/
theorem finiteSumIsNearestTiesToEven : Obligations.FiniteSumIsNearestTiesToEven := by
  intro F named a b r ha hb sum finite c _
  have regular := Format.regular_of_named named
  have unit_pos : (0 : ℚ) < 2 ^ (F.emin - (F.fracBits : Int)) := by positivity
  rcases Nat.lt_or_ge (roundMag F (fpUnits F a + fpUnits F b).natAbs) (2 ^ (F.fracBits + 2 * F.bias)) with small | large
  · obtain ⟨r', sum', -, units, frac⟩ := fadd_of_finite_of_small regular ha hb rfl small
    obtain rfl : r = r' := Option.some.inj (sum.symm.trans sum')
    obtain ⟨nearest, tie⟩ := fpUnits_nearest c units
    rw [abs_fpValue_sub_add, abs_fpValue_sub_add, mul_le_mul_iff_of_pos_right unit_pos, Int.cast_le,
      mul_left_inj' unit_pos.ne', Int.cast_inj]
    refine ⟨nearest, fun equal different => frac (tie equal fun same => different ?_)⟩
    rw [fpValue_eq_units, fpValue_eq_units, same]
  · rw [fadd_of_finite_of_large regular ha hb rfl large] at sum
    have infinite := fpIsInf_of_finite (Option.some.inj sum ▸ finite)
    simp [fpIsInf_inf] at infinite

/-- The sign of an exact number of units. -/
theorem units_mul_neg_iff (F : Format) (x : Int) :
    (x : ℚ) * 2 ^ (F.emin - (F.fracBits : Int)) < 0 ↔ x < 0 := by
  have unit_pos : (0 : ℚ) < 2 ^ (F.emin - (F.fracBits : Int)) := by positivity
  rw [← Int.cast_lt_zero (R := ℚ)]
  exact ⟨fun negative => neg_of_mul_neg_left negative unit_pos.le,
    fun negative => mul_neg_of_neg_of_pos negative unit_pos⟩

/-- The magnitude of an exact sum, in units. -/
theorem abs_fpValue_add (F : Format) (a b : BitVec F.bits) :
    |fpValue F a + fpValue F b| =
      ((fpUnits F a + fpUnits F b).natAbs : ℚ) * 2 ^ (F.emin - (F.fracBits : Int)) := by
  have unit_pos : (0 : ℚ) < 2 ^ (F.emin - (F.fracBits : Int)) := by positivity
  rw [fpValue_add, abs_mul, abs_of_pos unit_pos, Nat.cast_natAbs, Int.cast_abs]

/-- R123's overflow threshold on units: the rounding there overflows. -/
theorem threshold_le_iff {F : Format} (regular : F.Regular) (n : Nat) :
    (2 - (2 : ℚ) ^ (-((F.fracBits : Int) + 1))) * (2 : ℚ) ^ F.bias ≤ n * 2 ^ (F.emin - (F.fracBits : Int)) ↔
      2 ^ (F.fracBits + 2 * F.bias) ≤ roundMag F n := by
  have bias := regular.bias_pos
  have scale_pos : (0 : ℚ) < 2 ^ (F.bias + F.fracBits) := by positivity
  have threshold : (2 - (2 : ℚ) ^ (-((F.fracBits : Int) + 1))) * (2 : ℚ) ^ F.bias * 2 ^ (F.bias + F.fracBits) =
      2 * 2 ^ (F.fracBits + 2 * F.bias) - 2 ^ (2 * F.bias - 1) := by
    have least : (2 : ℚ) ^ (-((F.fracBits : Int) + 1)) * (2 ^ F.bias * 2 ^ (F.bias + F.fracBits)) =
        2 ^ (2 * F.bias - 1) := by
      simp only [← zpow_natCast]
      rw [← zpow_add₀ two_ne_zero, ← zpow_add₀ two_ne_zero]
      congr 1
      omega
    rw [mul_assoc, sub_mul, least, ← pow_add]
    congr 3
    omega
  have units : (n : ℚ) * 2 ^ (F.emin - (F.fracBits : Int)) * 2 ^ (F.bias + F.fracBits) = 2 * n := by
    have : (2 : ℚ) ^ (F.emin - (F.fracBits : Int)) * 2 ^ (F.bias + F.fracBits) = 2 := by
      rw [← zpow_natCast, ← zpow_add₀ two_ne_zero, Format.emin]
      convert zpow_one (2 : ℚ) using 2
      omega
    rw [mul_assoc, this, mul_comm]
  have top : F.fracBits + 2 * F.bias = F.fracBits + 1 + (2 * F.bias - 1) := by omega
  rw [← mul_le_mul_iff_of_pos_right scale_pos, threshold, units, sub_le_iff_le_add, top, two_pow_le_roundMag_iff]
  exact_mod_cast Iff.rfl

/-- Settles O18: the threshold is where the rounded magnitude reaches `2 ^ (emax + 1)`. -/
theorem sumOverflowsExactlyAtTheThreshold : Obligations.SumOverflowsExactlyAtTheThreshold := by
  intro F named a b ha hb
  have regular := Format.regular_of_named named
  refine ⟨fun large => ?_, fun small => ?_⟩
  · rw [abs_fpValue_add, threshold_le_iff regular] at large
    simp only [fpValue_add, units_mul_neg_iff]
    exact fadd_of_finite_of_large regular ha hb rfl large
  · rw [← not_le, abs_fpValue_add, threshold_le_iff regular, Nat.not_le] at small
    obtain ⟨r, sum, finite, -⟩ := fadd_of_finite_of_small regular ha hb rfl small
    exact ⟨r, sum, finite⟩

/-- `2 ^ emin` on units. -/
theorem units_lt_two_pow_emin_iff (F : Format) (n : Nat) :
    (n : ℚ) * 2 ^ (F.emin - (F.fracBits : Int)) < (2 : ℚ) ^ F.emin ↔ n < 2 ^ F.fracBits := by
  have unit_pos : (0 : ℚ) < 2 ^ (F.emin - (F.fracBits : Int)) := by positivity
  have whole : (2 : ℚ) ^ F.emin = 2 ^ F.fracBits * 2 ^ (F.emin - (F.fracBits : Int)) := by
    rw [← zpow_natCast, ← zpow_add₀ two_ne_zero, add_sub_cancel]
  rw [whole, mul_lt_mul_iff_of_pos_right unit_pos]
  exact_mod_cast Iff.rfl

/-- A non-zero sum of finite data is no zero: its magnitude is not rounded to 0, and an infinity is no zero. -/
theorem fadd_of_finite_ne_zero {F : Format} (regular : F.Regular) {a b : BitVec F.bits} (ha : fpIsFinite F a = true)
    (hb : fpIsFinite F b = true) (nonzero : fpUnits F a + fpUnits F b ≠ 0) :
    ∃ r, fadd F a b = some r ∧ fpIsZero F r = false := by
  have magnitude := roundMag_ne_zero F (Int.natAbs_ne_zero.mpr nonzero)
  rcases Nat.lt_or_ge (roundMag F (fpUnits F a + fpUnits F b).natAbs) (2 ^ (F.fracBits + 2 * F.bias)) with small | large
  · obtain ⟨r, sum, -, units, -⟩ := fadd_of_finite_of_small regular ha hb rfl small
    refine ⟨r, sum, Bool.eq_false_of_not_eq_true fun zero => ?_⟩
    rw [fpUnits_of_zero zero] at units
    split_ifs at units <;> omega
  · exact ⟨_, fadd_of_finite_of_large regular ha hb rfl large, fpIsZero_of_inf regular (fpIsInf_inf F _)⟩

/-- A sum of finite data below `2 ^ emin` is not rounded at all. -/
theorem fadd_of_finite_exact {F : Format} (regular : F.Regular) {a b : BitVec F.bits} (ha : fpIsFinite F a = true)
    (hb : fpIsFinite F b = true) (small : (fpUnits F a + fpUnits F b).natAbs < 2 ^ F.fracBits) :
    ∃ r, fadd F a b = some r ∧ fpIsFinite F r = true ∧ fpUnits F r = fpUnits F a + fpUnits F b := by
  have exact_mag := roundMag_of_roundExp_eq_zero (roundExp_eq_zero_of_lt small)
  have below : roundMag F (fpUnits F a + fpUnits F b).natAbs < 2 ^ (F.fracBits + 2 * F.bias) := by
    rw [exact_mag]
    exact small.trans_le (Nat.pow_le_pow_right two_pos (Nat.le_add_right _ _))
  obtain ⟨r, sum, finite, units, -⟩ := fadd_of_finite_of_small regular ha hb rfl below
  refine ⟨r, sum, finite, ?_⟩
  rw [units, exact_mag]
  split_ifs <;> omega

/-- Settles O19. -/
theorem subnormalSumsAreExact : Obligations.SubnormalSumsAreExact := by
  intro F named a b ha hb
  have regular := Format.regular_of_named named
  rw [abs_fpValue_add, units_lt_two_pow_emin_iff, fpValue_add, Ne, units_mul_eq_zero_iff]
  refine ⟨fadd_of_finite_ne_zero regular ha hb, fun small => ?_⟩
  obtain ⟨r, sum, finite, units⟩ := fadd_of_finite_exact regular ha hb small
  exact ⟨r, sum, finite, by rw [fpValue_eq_units, units]⟩

end Sys2Proof.Machine
end

section
/-! The Mandelbrot counter (`42_mandelbrot.md`): the count by the tests of the orbit, the points whose count is known,
and R160's loop on bit patterns. -/

namespace Sys2Proof.Machine

/-- The test of R160's loop on the orbit of a point after `k` steps. -/
abbrev orbitTest (x0 y0 : BitVec 64) (k : Nat) : Bool := staysBounded (orbit x0 y0 k).1 (orbit x0 y0 k).2

/-- What `count` is to a loop that starts at pass `iter`: the first failed test from there on, or the bound. -/
structure StopsAt (n : Int) (x0 y0 : BitVec 64) (iter count : Nat) : Prop where
  start_le : iter ≤ count
  passed : ∀ j, iter ≤ j → j < count → orbitTest x0 y0 j = true
  stopped : (count : Int) < n → orbitTest x0 y0 count = false
  le_bound : (count : Int) ≤ max n iter

/-- The loop on the orbit stops so, when its fuel reaches beyond the bound. -/
theorem escapeLoop_stopsAt (n : Int) (x0 y0 : BitVec 64) (fuel iter : Nat) (enough : n < iter + fuel) :
    StopsAt n x0 y0 iter (escapeLoop n x0 y0 fuel iter (orbit x0 y0 iter).1 (orbit x0 y0 iter).2) := by
  induction fuel generalizing iter with
  | zero =>
    rw [escapeLoop]
    exact ⟨le_rfl, fun j low high => by omega, fun below => by omega, le_max_right _ _⟩
  | succ fuel ih =>
    rw [escapeLoop]
    split_ifs with goesOn
    · obtain ⟨below, test⟩ := goesOn
      obtain ⟨start_le, passed, stopped, le_bound⟩ := ih (iter + 1) (by omega)
      refine ⟨Nat.le_of_succ_le start_le, fun j low high => ?_, stopped, le_bound.trans (by omega)⟩
      rcases Nat.eq_or_lt_of_le low with rfl | later
      · exact test
      · exact passed j later high
    · refine ⟨le_rfl, fun j low high => by omega, fun below => ?_, le_max_right _ _⟩
      exact Bool.eq_false_of_not_eq_true fun test => goesOn ⟨below, test⟩

theorem escapeCount_stopsAt (n : Int) (x0 y0 : BitVec 64) : StopsAt n x0 y0 0 (escapeCount n x0 y0) :=
  escapeLoop_stopsAt n x0 y0 (n.toNat + 1) 0 (by omega)

/-- The first test is that of the point 0, which is bounded. -/
theorem orbitTest_zero (x0 y0 : BitVec 64) : orbitTest x0 y0 0 = true := by
  have : staysBounded (some fpConst0) (some fpConst0) = true := by decide +kernel
  exact this

theorem escapeCount_eq_zero_iff (n : Int) (x0 y0 : BitVec 64) : escapeCount n x0 y0 = 0 ↔ n ≤ 0 := by
  obtain ⟨-, -, stopped, le_bound⟩ := escapeCount_stopsAt n x0 y0
  constructor
  · intro zero
    rw [zero] at stopped
    by_contra positive
    simpa [orbitTest_zero] using stopped (by omega)
  · omega

/-- Settles O25. -/
theorem mandelCountIsTheFirstFailedTest : Obligations.MandelCountIsTheFirstFailedTest := by
  intro n x0 y0
  obtain ⟨-, passed, stopped, le_bound⟩ := escapeCount_stopsAt n x0 y0
  exact ⟨fun j => passed j (Nat.zero_le j), stopped, le_bound, escapeCount_eq_zero_iff n x0 y0⟩

/-- Where every test passes, the count is the bound. -/
theorem escapeCount_of_bounded {x0 y0 : BitVec 64} (bounded : ∀ k, orbitTest x0 y0 k = true) (n : Nat) :
    escapeCount n x0 y0 = n := by
  obtain ⟨-, -, stopped, le_bound⟩ := escapeCount_stopsAt n x0 y0
  by_contra different
  simpa [bounded] using stopped (by omega)

/-- Where the second test fails, the count is 1 for every bound of at least 1. -/
theorem escapeCount_of_second_test {n : Int} {x0 y0 : BitVec 64} (positive : 1 ≤ n)
    (fails : orbitTest x0 y0 1 = false) : escapeCount n x0 y0 = 1 := by
  have nonzero := (escapeCount_eq_zero_iff n x0 y0).not.mpr (by omega)
  obtain ⟨-, passed, -, -⟩ := escapeCount_stopsAt n x0 y0
  by_contra different
  simpa [fails] using passed 1 (Nat.zero_le _) (by omega)

/-- The step from the point 0 adds the seed to +0, in both coordinates. -/
theorem next_of_origin (c : BitVec 64) :
    nextX c (some fpConst0) (some fpConst0) = fadd binary64 fpConst0 c ∧
      nextY c (some fpConst0) (some fpConst0) = fadd binary64 fpConst0 c := by
  have difference : subVal (mulVal (some fpConst0) (some fpConst0)) (mulVal (some fpConst0) (some fpConst0)) =
      some fpConst0 := by decide +kernel
  have product : mulVal (mulVal (some fpConst2) (some fpConst0)) (some fpConst0) = some fpConst0 := by decide +kernel
  rw [nextX, nextY, difference, product]
  exact ⟨rfl, rfl⟩

theorem orbit_one (x0 y0 : BitVec 64) :
    orbit x0 y0 1 = (fadd binary64 fpConst0 x0, fadd binary64 fpConst0 y0) := by
  rw [orbit, orbit, (next_of_origin x0).1, (next_of_origin y0).2]

/-- A zero of either sign added to +0 gives +0. -/
theorem fadd_const0_of_zero {c : BitVec 64} (zero : fpIsZero binary64 c = true) :
    fadd binary64 fpConst0 c = some fpConst0 := by
  have origin : fpIsZero binary64 fpConst0 = true := by decide
  have regular : binary64.Regular := Format.regular_of_named (.inr rfl)
  have positive : fpSign binary64 fpConst0 = false := by decide
  rw [fadd_of_finite_of_eq_zero (fpIsFinite_of_zero regular origin) (fpIsFinite_of_zero regular zero)
    (by rw [fpUnits_of_zero origin, fpUnits_of_zero zero, add_zero]), positive, Bool.false_and]
  decide

/-- The orbit of a zero stays at 0 (R162 a). -/
theorem orbit_of_zeros {x0 y0 : BitVec 64} (hx : fpIsZero binary64 x0 = true) (hy : fpIsZero binary64 y0 = true)
    (k : Nat) : orbit x0 y0 k = (some fpConst0, some fpConst0) := by
  induction k with
  | zero => rfl
  | succ k ih =>
    rw [orbit, ih, (next_of_origin x0).1, (next_of_origin y0).2, fadd_const0_of_zero hx, fadd_const0_of_zero hy]

/-- The orbit of (-2, 0) goes to (-2, 0) and then stays at (2, 0), whose squared modulus is 4.0 (R162 e). -/
theorem orbit_of_minus_two (k : Nat) :
    orbit 0xC000000000000000 0 1 = (some 0xC000000000000000, some fpConst0) ∧
      orbit 0xC000000000000000 0 (k + 2) = (some fpConst2, some fpConst0) := by
  have first : orbit 0xC000000000000000 0 1 = (some 0xC000000000000000, some fpConst0) := by decide +kernel
  have second : (nextX 0xC000000000000000 (some 0xC000000000000000) (some fpConst0),
      nextY 0 (some 0xC000000000000000) (some fpConst0)) = (some fpConst2, some fpConst0) := by decide +kernel
  have fixed : (nextX 0xC000000000000000 (some fpConst2) (some fpConst0),
      nextY 0 (some fpConst2) (some fpConst0)) = (some fpConst2, some fpConst0) := by decide +kernel
  refine ⟨first, ?_⟩
  induction k with
  | zero => rw [orbit, first, second]
  | succ k ih => rw [orbit, ih, fixed]

/-- Settles O27: the orbits stay on points whose test passes. -/
theorem mandelBoundedOrbitsCountTheBound : Obligations.MandelBoundedOrbitsCountTheBound := by
  refine fun n => ⟨fun x0 y0 hx hy => escapeCount_of_bounded (fun k => ?_) n,
    escapeCount_of_bounded (fun k => ?_) n⟩
  · rw [orbitTest, orbit_of_zeros hx hy]
    exact orbitTest_zero x0 y0
  · have edge : staysBounded (some 0xC000000000000000) (some fpConst0) = true ∧
        staysBounded (some fpConst2) (some fpConst0) = true := by decide +kernel
    match k with
    | 0 => exact orbitTest_zero _ _
    | 1 => rw [orbitTest, (orbit_of_minus_two 0).1, edge.1]
    | k + 2 => rw [orbitTest, (orbit_of_minus_two k).2, edge.2]

-- Points that are not finite (R162 b, c): their squared modulus is +infinity, or a NaN.

/-- A value that is +infinity, if it is no NaN. -/
def PosInfOrNaN (v : FpVal) : Prop := ∀ u, v = some u → u = fpInf binary64 false

theorem fpSign_inf (F : Format) (s : Bool) : fpSign F (fpInf F s) = s := fpSign_pack F s _ _

/-- Rounding keeps the sign. -/
theorem fpSign_fpRound (F : Format) (k : Nat) (s : Bool) (n : Nat) : fpSign F (fpRound F k s n) = s := by
  rw [fpRound_eq F k s n _ _ rfl rfl]
  split_ifs <;> exact fpSign_pack F s _ _

/-- A square is never negative. -/
theorem fpSign_of_square {F : Format} {a r : BitVec F.bits} (square : fmul F a a = some r) : fpSign F r = false := by
  rcases fp_classes F a with nan | inf | finite
  · simp [fmul_of_nan (.inl nan)] at square
  · simp only [fmul, inf, fpIsNaN_of_inf inf, bne_self_eq_false, Bool.or_self, Bool.false_eq_true, if_false,
      if_true] at square
    split_ifs at square
    exact Option.some.inj square ▸ fpSign_inf F false
  · rw [fmul_of_finite finite finite, bne_self_eq_false] at square
    split_ifs at square
    · exact Option.some.inj square ▸ fpSign_fpRound F _ false _
    · exact Option.some.inj square ▸ fpSign_zero F false

/-- The square of a value that is no finite datum. -/
theorem posInfOrNaN_square {v : FpVal} (notFinite : ∀ u, v = some u → fpIsFinite binary64 u = false) :
    PosInfOrNaN (mulVal v v) := by
  intro r square
  cases v with
  | none => cases square
  | some u =>
    change fmul binary64 u u = some r at square
    have regular : binary64.Regular := Format.regular_of_named (.inr rfl)
    rcases fp_classes binary64 u with nan | inf | finite
    · simp [fmul_of_nan (.inl nan)] at square
    · have notNaN := fpIsNaN_of_inf inf
      have notZero := fpIsZero_of_inf regular inf
      rw [fmul_of_inf (.inl inf) ⟨notNaN, notNaN⟩ ⟨notZero, notZero⟩, bne_self_eq_false] at square
      exact (Option.some.inj square).symm
    · simp [notFinite u rfl] at finite

/-- +infinity or a NaN, and a square: the sum is +infinity or a NaN. -/
theorem posInfOrNaN_add_square {v w : FpVal} (hv : PosInfOrNaN v) : PosInfOrNaN (addVal v (mulVal w w)) := by
  intro r sum
  cases v with
  | none => cases sum
  | some a =>
    obtain rfl := hv a rfl
    have inf := fpIsInf_inf binary64 false
    cases square : mulVal w w with
    | none => rw [square] at sum; cases sum
    | some b =>
      have nonneg : fpSign binary64 b = false := by
        cases w with
        | none => cases square
        | some c => exact fpSign_of_square square
      rw [square] at sum
      change fadd binary64 (fpInf binary64 false) b = some r at sum
      rcases fp_classes binary64 b with nan | infB | finite
      · simp [fadd_of_nan (.inr nan)] at sum
      · rw [fadd_of_inf_of_inf inf infB, nonneg, if_pos (fpSign_inf _ _)] at sum
        exact (Option.some.inj sum).symm
      · rw [fadd_of_inf_of_finite inf finite] at sum
        exact (Option.some.inj sum).symm

/-- Neither +infinity nor a NaN is at most 4.0. -/
theorem leVal_of_posInfOrNaN {v : FpVal} (hv : PosInfOrNaN v) : leVal v fpConst4 = false := by
  cases v with
  | none => rfl
  | some u =>
    obtain rfl := hv u rfl
    change fle binary64 (fpInf binary64 false) fpConst4 = false
    rw [fle_of_inf_of_finite (fpIsInf_inf binary64 false) (by decide)]
    exact fpSign_inf binary64 false

theorem addVal_comm (v w : FpVal) : addVal v w = addVal w v := by
  match v, w with
  | some a, some b => exact fadd_comm binary64 a b
  | none, none | none, some _ | some _, none => rfl

/-- A point with a coordinate that is no finite datum fails the test. -/
theorem staysBounded_of_not_finite {x y : FpVal}
    (notFinite : (∀ u, x = some u → fpIsFinite binary64 u = false) ∨ ∀ u, y = some u → fpIsFinite binary64 u = false) :
    staysBounded x y = false := by
  rcases notFinite with hx | hy
  · exact leVal_of_posInfOrNaN (posInfOrNaN_add_square (posInfOrNaN_square hx))
  · rw [staysBounded, addVal_comm]
    exact leVal_of_posInfOrNaN (posInfOrNaN_add_square (posInfOrNaN_square hy))

/-- +0 and a seed that is no finite datum: the seed itself, or a NaN. -/
theorem fadd_const0_of_not_finite {c : BitVec 64} (notFinite : fpIsFinite binary64 c = false) :
    ∀ u, fadd binary64 fpConst0 c = some u → fpIsFinite binary64 u = false := by
  intro u sum
  rcases fp_classes binary64 c with nan | inf | finite
  · simp [fadd_of_nan (.inr nan)] at sum
  · rw [fadd_of_finite_of_inf (by decide) inf] at sum
    exact Option.some.inj sum ▸ notFinite
  · simp [notFinite] at finite

/-- Settles O26: after one step the coordinate is the seed's, or a NaN, and the second test fails. -/
theorem mandelNaNOrInfiniteSeedCountsOne : Obligations.MandelNaNOrInfiniteSeedCountsOne := by
  intro n x0 y0 positive notFinite
  refine escapeCount_of_second_test positive ?_
  rw [orbitTest, orbit_one]
  exact staysBounded_of_not_finite (notFinite.imp fadd_const0_of_not_finite fadd_const0_of_not_finite)

-- R160's loop on bit patterns (R162 d).

/-- The pattern `p` stands for the value `v`: it is the datum, or some NaN where `v` is one. -/
def StandsFor (p : BitVec 64) (v : FpVal) : Prop := v = some p ∨ v = none ∧ fpIsNaN binary64 p = true

/-- A result's pattern stands for the result, whatever NaN was drawn. -/
theorem standsFor_patternOf (r : FpVal) {nan : BitVec 64} (isNaN : fpIsNaN binary64 nan = true) :
    StandsFor (patternOf r nan) r := by
  cases r with
  | none => exact .inr ⟨rfl, isNaN⟩
  | some u => exact .inl rfl

/-- A primitive that gives a NaN on every NaN works on values as it does on the patterns that stand for them. -/
theorem standsFor_onValues {op : BitVec 64 → BitVec 64 → Option (BitVec 64)}
    (propagates : ∀ {a b}, fpIsNaN binary64 a = true ∨ fpIsNaN binary64 b = true → op a b = none)
    {p q nan : BitVec 64} {v w : FpVal} (hp : StandsFor p v) (hq : StandsFor q w)
    (isNaN : fpIsNaN binary64 nan = true) : StandsFor (patternOf (op p q) nan) (onValues op v w) := by
  have same : onValues op v w = op p q := by
    rcases hp with rfl | ⟨rfl, nanP⟩
    · rcases hq with rfl | ⟨rfl, nanQ⟩
      · rfl
      · exact (propagates (.inr nanQ)).symm
    · exact (propagates (.inl nanP)).symm
  rw [same]
  exact standsFor_patternOf _ isNaN

/-- The comparison is false on every NaN. -/
theorem leVal_of_standsFor {p : BitVec 64} {v : FpVal} (hp : StandsFor p v) (bound : BitVec 64) :
    leVal v bound = fle binary64 p bound := by
  rcases hp with rfl | ⟨rfl, nan⟩
  · rfl
  · exact (fle_of_nan (.inl nan)).symm

/-- The loop on patterns counts as the loop on values, from patterns that stand for the values. -/
theorem literalLoop_eq_escapeLoop {nan : Nat → BitVec 64} (isNaN : ∀ k, fpIsNaN binary64 (nan k) = true) (n : Int)
    (x0 y0 : BitVec 64) (fuel iter : Nat) {p q : BitVec 64} {x y : FpVal} (hx : StandsFor p x) (hy : StandsFor q y) :
    literalLoop nan n x0 y0 fuel iter p q = escapeLoop n x0 y0 fuel iter x y := by
  induction fuel generalizing iter p q x y with
  | zero => rfl
  | succ fuel ih =>
    have mul : ∀ {a b : BitVec 64} {v w : FpVal} (k : Nat), StandsFor a v → StandsFor b w →
        StandsFor (patternOf (fmul binary64 a b) (nan k)) (mulVal v w) :=
      fun k ha hb => standsFor_onValues fmul_of_nan ha hb (isNaN k)
    have add : ∀ {a b : BitVec 64} {v w : FpVal} (k : Nat), StandsFor a v → StandsFor b w →
        StandsFor (patternOf (fadd binary64 a b) (nan k)) (addVal v w) :=
      fun k ha hb => standsFor_onValues fadd_of_nan ha hb (isNaN k)
    have sub : ∀ {a b : BitVec 64} {v w : FpVal} (k : Nat), StandsFor a v → StandsFor b w →
        StandsFor (patternOf (fsub binary64 a b) (nan k)) (subVal v w) :=
      fun k ha hb => standsFor_onValues fsub_of_nan ha hb (isNaN k)
    have xx := mul (8 * iter) hx hx
    have yy := mul (8 * iter + 1) hy hy
    have test := leVal_of_standsFor (add (8 * iter + 2) xx yy) fpConst4
    have xNext := add (8 * iter + 4) (sub (8 * iter + 3) xx yy) (.inl rfl : StandsFor x0 (some x0))
    have yNext := add (8 * iter + 7) (mul (8 * iter + 6) (mul (8 * iter + 5) (.inl rfl : StandsFor fpConst2 _) hx) hy)
      (.inl rfl : StandsFor y0 (some y0))
    rw [literalLoop, escapeLoop, staysBounded, test]
    simp only [ih (iter + 1) xNext yNext]
    rfl

/-- Settles O24: both loops start at the pattern of +0, which stands for itself. -/
theorem mandelCountIsTheLiteralLoops : Obligations.MandelCountIsTheLiteralLoops :=
  fun _ isNaN n x0 y0 => (literalLoop_eq_escapeLoop isNaN n x0 y0 (n.toNat + 1) 0 (.inl rfl) (.inl rfl)).symm

end Sys2Proof.Machine
end
